-- ==== Sys2Proof/Word.lean ====
section
/-! DEFINITION. The bit vectors of the MF16 (00_scope.md R5): 16-bit words, the bytes memory is addressed in, and the
4-bit register-number fields. Every type here has the one width the spec fixes. -/

namespace Sys2Proof

/-- A 16-bit word: a register, a memory word, an address, an instruction (R5: XLEN = ILEN = ALEN = 16). -/
abbrev Word := BitVec 16

/-- The unit of memory addressing (R5: "Memory addressing: Byte"), and the width of the I-type immediate (R81). -/
abbrev Byte := BitVec 8

/-- A register number, 0 to 15, as the fields `rs`, `rt` and `rd` hold it (R22, R80). -/
abbrev Reg := BitVec 4

end Sys2Proof
end

