-- ==== Sys2Proof/Config.lean ====
section
/-! DEFINITION. The parameters the source leaves open (00_scope.md R6), as the fields of one structure. The operations of
Machine/ take a `Config` as an argument; an instruction and a step under any settings are `execWith` and `stepWith`
(Machine/AnyConfig.lean), and the machine that `exec` and `step` run is the one with `settings` (Machine/Settings.lean). The
spec leaves no result of an instruction undefined, so there is no free value here (INVENTORY.md, "What the manual leaves
open"). -/

namespace Sys2Proof

/-- What an odd address does where the source says bit 0 "must be zero" (R6 `MISALIGNED_DATA`, `MISALIGNED_TARGET`; D2, D3). -/
inductive OddPolicy where
  | fault        -- stop with the fault of R191 or R192
  | ignoreBit0   -- use the address with bit 0 cleared
  deriving DecidableEq, Repr

/-- What a non-zero should-be-zero field does (R6 `SBZ_NONZERO`, R87, D4). -/
inductive SbzPolicy where
  | fault    -- a reserved encoding
  | ignore   -- decoded as if the field were zero
  deriving DecidableEq, Repr

/-- Which byte address of a word holds its bits 15:8 (R6 `BYTE_ORDER`, R50, D1). -/
inductive ByteOrder where
  | big      -- the even (lower) address
  | little   -- the odd (higher) address
  deriving DecidableEq, Repr

/-- What `jrl` adds to the pc for the link (R6 `LINK_OFFSET`: 2 or 4; D5). -/
inductive LinkOffset where
  | two
  | four
  deriving DecidableEq, Repr

/-- The parameters of R6, one field a row of its table. -/
structure Config where
  /-- `RESET_PC`: the pc after reset (D9). -/
  resetPc : Word
  /-- `RESET_GPR`: registers 1 to 15 after reset (D10). -/
  resetGpr : Reg → Word
  /-- `MEM_IMPLEMENTED`: which even byte addresses have a word (D11). -/
  memImplemented : Word → Bool
  /-- `MEM_INIT`: the (address, word) pairs in memory when reset is released (D11). -/
  memInit : List (Word × Word)
  /-- `LOAD_BASE`: where the assembler puts its first word (D12). -/
  loadBase : Word
  /-- `BYTE_ORDER`, where one is given: no instruction reads it, only a tool that takes a byte-wise image (R50, D1). -/
  byteOrder : Option ByteOrder
  /-- `ASCIIZ_PACKING`: how the characters of `.asciiz` lie in words, where a layout is supplied (D17). -/
  asciizPacking : Option (List Char → List Word)
  /-- `MISALIGNED_DATA` (D2). -/
  misalignedData : OddPolicy
  /-- `MISALIGNED_TARGET` (D3). -/
  misalignedTarget : OddPolicy
  /-- `SBZ_NONZERO` (D4). -/
  sbzNonzero : SbzPolicy
  /-- `SLT_FALSE_VALUE` (D7). -/
  sltFalseValue : Word
  /-- `DELAY_SLOT`: whether the instruction after a taken transfer executes first (D5). -/
  delaySlot : Bool
  /-- `LINK_OFFSET` (D5). -/
  linkOffset : LinkOffset

end Sys2Proof
end

