-- ==== Sys2Proof/Machine/Memory.lean ====
section
/-! DEFINITION. Memory as data, and reading and writing it (20_memory.md). One byte-addressed space, accessed only in words at
even addresses (R30, R57): a map from even addresses to words, which are never split into bytes (R50, D1). It is a list of
(address, word) pairs in rising order of address; an address that is not listed holds no value (10_state.md R32), so the list
of a memory is unique. The checks an access makes (R54 to R56) are in Machine/Ops.lean. -/

namespace Sys2Proof.Machine

/-- The words that hold a value, by byte address. An unlisted word holds none (R32, D11; log 12). -/
abbrev Memory := List (Nat × Word)

/-- The canonical form: addresses strictly rising, all even and in the 16-bit space (R30). An unlisted address reads as "no
value", which no entry equals. -/
abbrev Memory.wf (m : Memory) : Prop :=
  m.Pairwise (fun p q => p.1 < q.1) ∧ ∀ p ∈ m, p.1 % 2 = 0 ∧ p.1 < 0x10000

/-- The word listed under an address, if it holds a value. -/
def Memory.read : Memory → Nat → Option Word
  | [], _ => none
  | (k, v) :: rest, a => if k = a then some v else Memory.read rest a

/-- The memory with the word under an address set, in the same order. -/
def Memory.write : Memory → Nat → Word → Memory
  | [], a, v => [(a, v)]
  | (k, w) :: rest, a, v =>
    if a < k then (a, v) :: (k, w) :: rest
    else if a = k then (a, v) :: rest
    else (k, w) :: Memory.write rest a v

/-- The word at an even address (R30). -/
def Memory.readWord (m : Memory) (a : Word) : Option Word := Memory.read m a.toNat

/-- The memory with the word at an even address set, every other word as it was (R55). -/
def Memory.writeWord (m : Memory) (a v : Word) : Memory := Memory.write m a.toNat v

/-- A memory image's words, laid down in order (R6 `MEM_INIT`); of two for one address the later stands (DESIGN
CHOICE, log 25). -/
def Memory.load (m : Memory) : List (Word × Word) → Memory
  | [] => m
  | (a, v) :: rest => Memory.load (Memory.writeWord m a v) rest

/-- Words at consecutive word addresses from `loc`. -/
def place (loc : Nat) : List Word → List (Word × Word)
  | [] => []
  | w :: ws => (BitVec.ofNat 16 loc, w) :: place (loc + 2) ws

end Sys2Proof.Machine
end

