-- ==== Sys2Proof/Machine/Settings.lean ====
section
/-! DEFINITION. The setting of each parameter of 00_scope.md R6 that the modelled machine runs with: the default of the
table (92_eei_decisions.md) where it gives one, and the model's own choice where it does not. -/

namespace Sys2Proof

/-- The modelled machine's parameters.

* `resetPc`, `loadBase`: 0x0000 (R6; D9, D12; log 3, 19).
* `resetGpr`: 0x0000 for every register. DESIGN CHOICE: the source gives no value and R6 offers "no value"; log 1.
* `memImplemented`: all 32768 words (R6; D11; log 12).
* `memInit`: nothing; an image comes with a launch (R6; D11; log 12).
* `byteOrder`: none (R6 OPEN; no rule reads it, R50, D1; log 2).
* `asciizPacking`: none, so the assembler refuses `.asciiz` (R6 OPEN; R97; D17; log 18).
* `misalignedData`, `misalignedTarget`, `sbzNonzero`: fault (R6; D2, D3, D4; log 5, 6, 7).
* `sltFalseValue`: 0x0000. PRESUMED: R114 marks it as general knowledge (G1, D7); log 8.
* `delaySlot`, `linkOffset`: false and 2 (R6, R124; D5, C8; log 4). -/
def settings : Config where
  resetPc := 0#16
  resetGpr := fun _ => 0#16
  memImplemented := fun a => !a.getLsbD 0
  memInit := []
  loadBase := 0#16
  byteOrder := none
  asciizPacking := none
  misalignedData := .fault
  misalignedTarget := .fault
  sbzNonzero := .fault
  sltFalseValue := 0#16
  delaySlot := false
  linkOffset := .two

end Sys2Proof
end

