-- ==== Sys2Proof/Machine/State.lean ====
section
/-! DEFINITION. The state of the machine (10_state.md R20), the reasons a step can stop (60_exceptions.md R190 to R195),
and the state after reset (R32, 70_reset_and_hazards.md R220). -/

namespace Sys2Proof.Machine

/-- The state of an MF16 between two instructions: R20's three parts, and one field of the model's own. -/
structure State where
  /-- Registers 1 to 15, register `n` at position `n - 1` (R22). Register 0 is the constant zero and is not stored (R21);
  `getReg` and `setReg` (Machine/Ops.lean) are the only ways to a register. -/
  regs : Vector Word 15
  /-- The program counter: the address of the instruction being executed (R25). -/
  pc : Word
  /-- Memory (R30). -/
  mem : Memory
  /-- The model's own, no hardware state under the spec's setting: under `DELAY_SLOT = true` the target of a taken transfer
  while the instruction after it executes (R6, D5; log 4). Under `settings` nothing writes it and nothing reads it. -/
  delayed : Option Word
  deriving DecidableEq, Repr

/-- The spec's model-level faults (R190): the instruction had no effect and the machine stops. Each holds the fault's
`info` and the pc of the instruction. All are SAFE: the model stops where the hardware would go on with some result. -/
inductive Fault where
  /-- R191. Raised by `lw` and `sw` on an odd address under `MISALIGNED_DATA = fault`. Safe. -/
  | misalignedData (addr pc : Word)
  /-- R192. Raised by `jr`, `jrl` and `beq` on an odd target under `MISALIGNED_TARGET = fault`. Safe. -/
  | misalignedTarget (addr pc : Word)
  /-- R193. Raised at decode on a non-zero should-be-zero field under `SBZ_NONZERO = fault`. Safe. -/
  | reservedEncoding (word pc : Word)
  /-- R194. Raised by a fetch or `lw` of a memory word that holds no value. Safe. -/
  | uninitialisedRead (addr pc : Word)
  /-- R195. Raised by a fetch, `lw` or `sw` outside `MEM_IMPLEMENTED`; it cannot occur under `settings`. Safe. -/
  | unimplementedMemory (addr pc : Word)
  deriving DecidableEq, Repr

/-- The reasons a step has no meaning. -/
inductive Refusal where
  /-- `exec`'s answer for an instruction without a meaning. No arm gives it. Safe. -/
  | notModelled (mnemonic : String)
  /-- `step`'s answer where the pc is odd, which a launch refuses and no run reaches (R27, R53, R221). Safe. -/
  | oddProgramCounter (pc : Word)
  deriving DecidableEq, Repr

/-- The state right after reset with the parameters `c` (R32, R220). -/
def State.ofConfig (c : Config) : State where
  regs := Vector.ofFn fun i => c.resetGpr (BitVec.ofNat 4 (i.val + 1))
  pc := c.resetPc
  mem := Memory.load [] c.memInit
  delayed := none

/-- The modelled machine right after reset. The spec gives `x[0] = 0` and, as its default, the pc 0x0000 (R32, R220, D9;
log 3); registers 1 to 15 are zero by the model's choice (log 1); memory lists nothing (log 12). -/
def State.reset : State := State.ofConfig settings

end Sys2Proof.Machine
end

