-- ==== Sys2Proof/Syntax.lean ====
section
/-! DEFINITION. The syntax: the registers and their names (10_state.md R22), the sixteen opcodes and hardware instructions
(30_encoding.md R84), and the assembler's source statements and fourteen pseudo-instructions (R89 to R97,
45_pseudo_instructions.md R174). Meaning is elsewhere: the machine's in Machine/, the assembler's in Machine/Pseudo.lean
and Machine/Assembler.lean. -/

namespace Sys2Proof

/-! ### The registers (R22) -/

/-- The registers by the names software uses. -/
abbrev Reg.zero : Reg := 0#4
abbrev Reg.s0 : Reg := 1#4
abbrev Reg.s1 : Reg := 2#4
abbrev Reg.s2 : Reg := 3#4
abbrev Reg.s3 : Reg := 4#4
abbrev Reg.t0 : Reg := 5#4
abbrev Reg.t1 : Reg := 6#4
abbrev Reg.t2 : Reg := 7#4
abbrev Reg.t3 : Reg := 8#4
abbrev Reg.a0 : Reg := 9#4
abbrev Reg.a1 : Reg := 10#4
abbrev Reg.la : Reg := 11#4
abbrev Reg.sp : Reg := 12#4
abbrev Reg.rv : Reg := 13#4
abbrev Reg.at : Reg := 14#4
abbrev Reg.ra : Reg := 15#4

/-- The "description" column of R22's table. -/
inductive RegRole where
  | constantZero | savedTemporary | temporary | argument | labelAddress
  | stackPointer | returnValue | assemblerTemporary | returnAddress
  deriving DecidableEq, Repr

/-- One row of R22's table. `preserved` is the column "preserved across a call?" (none for "N/A"): a software convention
that no rule of the machine reads, and which does not hold for `$at` (R23, C14). -/
structure RegInfo where
  name : String
  num : Reg
  role : RegRole
  preserved : Option Bool
  deriving DecidableEq, Repr

/-- The register table of R22, transcribed whole. -/
def regTable : List RegInfo :=
  [ ⟨"$0", .zero, .constantZero, none⟩,
    ⟨"$s0", .s0, .savedTemporary, some true⟩,
    ⟨"$s1", .s1, .savedTemporary, some true⟩,
    ⟨"$s2", .s2, .savedTemporary, some true⟩,
    ⟨"$s3", .s3, .savedTemporary, some true⟩,
    ⟨"$t0", .t0, .temporary, some false⟩,
    ⟨"$t1", .t1, .temporary, some false⟩,
    ⟨"$t2", .t2, .temporary, some false⟩,
    ⟨"$t3", .t3, .temporary, some false⟩,
    ⟨"$a0", .a0, .argument, some false⟩,
    ⟨"$a1", .a1, .argument, some false⟩,
    ⟨"$la", .la, .labelAddress, some false⟩,
    ⟨"$sp", .sp, .stackPointer, some true⟩,
    ⟨"$rv", .rv, .returnValue, some true⟩,
    ⟨"$at", .at, .assemblerTemporary, some true⟩,
    ⟨"$ra", .ra, .returnAddress, some true⟩ ]

/-! ### The hardware instructions (R84) -/

/-- The sixteen values of the opcode field, in the order of their numbers 0x0 to 0xF (R84). -/
inductive Opcode where
  | add | and | beq | jr | jrl | lui | lw | bsr | nor | or | ori | sll | slt | xor | srl | sw
  deriving DecidableEq, Repr

/-- The sixteen hardware instructions, one constructor per row of spec/opcode_table.json in its order. The operands are
the fields of R80 and R81 in the order the assembler writes them (R94). The should-be-zero fields of `jr`, `jrl`, `lw` and
`sw` carry no operand (R86). A register field holds any of its 16 values and an immediate any of its 256, so every term is
an instruction of the hardware. -/
inductive Instr where
  | add (rs rt rd : Reg)
  | and (rs rt rd : Reg)
  | beq (rs rt rd : Reg)
  | jr (rd : Reg)
  | jrl (rd : Reg)
  | lui (rs : Reg) (imm : Byte)
  | lw (rs rt : Reg)
  | bsr (rs rt rd : Reg)
  | nor (rs rt rd : Reg)
  | or (rs rt rd : Reg)
  | ori (rs : Reg) (imm : Byte)
  | sll (rs rt rd : Reg)
  | slt (rs rt rd : Reg)
  | xor (rs rt rd : Reg)
  | srl (rs rt rd : Reg)
  | sw (rs rt : Reg)
  deriving DecidableEq, Repr

/-- The opcode of an instruction (R84). -/
def Instr.opcode : Instr → Opcode
  | .add _ _ _ => .add
  | .and _ _ _ => .and
  | .beq _ _ _ => .beq
  | .jr _ => .jr
  | .jrl _ => .jrl
  | .lui _ _ => .lui
  | .lw _ _ => .lw
  | .bsr _ _ _ => .bsr
  | .nor _ _ _ => .nor
  | .or _ _ _ => .or
  | .ori _ _ => .ori
  | .sll _ _ _ => .sll
  | .slt _ _ _ => .slt
  | .xor _ _ _ => .xor
  | .srl _ _ _ => .srl
  | .sw _ _ => .sw

/-! ### The pseudo-instructions (R174) -/

/-- The fourteen pseudo-instructions, operands in the order of their syntax rows (R160 to R173). `α` is what stands for a
16-bit immediate: a literal or a label before labels are resolved, a word after. -/
inductive Pseudo (α : Type) where
  | li (rs : Reg) (imm : α)
  | addi (rs : Reg) (imm : α) (rd : Reg)
  | andi (rs : Reg) (imm : α) (rd : Reg)
  | sub (rs rt rd : Reg)
  | lwo (rs rt : Reg) (imm : α)
  | swo (rs rt : Reg) (imm : α)
  | push (rs : Reg)
  | pop (rs : Reg)
  | call (func : α)
  | jmp (label : α)
  | jeq (rs rt : Reg) (label : α)
  | slli (shamt : BitVec 4) (rt rd : Reg)
  | srli (shamt : BitVec 4) (rt rd : Reg)
  | bsri (shamt : BitVec 4) (rt rd : Reg)
  deriving DecidableEq, Repr

/-- A label's name: letters and digits (R90). -/
abbrev LabelName := List Char

/-- A 16-bit immediate of a pseudo-instruction as written: a literal or `%name` (R91, R93). -/
inductive Imm16 where
  | lit (v : Word)
  | label (name : LabelName)
  deriving DecidableEq, Repr

/-! ### Source statements of the assembler (R89 to R94) -/

/-- The names of the pseudo-instructions (R174). -/
inductive PseudoName where
  | li | addi | andi | sub | lwo | swo | push | pop | call | jmp | jeq | slli | srli | bsri
  deriving DecidableEq, Repr

/-- What the first word of a statement names. -/
inductive Mnemonic where
  | hw (op : Opcode)
  | ps (p : PseudoName)
  deriving DecidableEq, Repr

/-- The mnemonics as the assembler spells them, lower case (R84, R94, R174, C15). -/
def mnemonicTable : List (String × Mnemonic) :=
  [ ("add", .hw .add), ("and", .hw .and), ("beq", .hw .beq), ("jr", .hw .jr), ("jrl", .hw .jrl), ("lui", .hw .lui),
    ("lw", .hw .lw), ("bsr", .hw .bsr), ("nor", .hw .nor), ("or", .hw .or), ("ori", .hw .ori), ("sll", .hw .sll),
    ("slt", .hw .slt), ("xor", .hw .xor), ("srl", .hw .srl), ("sw", .hw .sw) ] ++
  [ ("li", .ps .li), ("addi", .ps .addi), ("andi", .ps .andi), ("sub", .ps .sub), ("lwo", .ps .lwo), ("swo", .ps .swo),
    ("push", .ps .push), ("pop", .ps .pop), ("call", .ps .call), ("jmp", .ps .jmp), ("jeq", .ps .jeq),
    ("slli", .ps .slli), ("srli", .ps .srli), ("bsri", .ps .bsri) ]

/-- One operand of a statement as read from the line; a number may still be out of range (R91 to R93). -/
inductive Operand where
  | reg (r : Reg)
  | imm (n : Nat)
  | label (name : LabelName)
  deriving DecidableEq, Repr

/-- A statement as read from the line, before it is checked (WellFormed.lean). -/
structure Stmt where
  mnemonic : Mnemonic
  operands : List Operand
  deriving DecidableEq, Repr

/-- What a position of a statement admits (R93, R94). -/
inductive OperandKind where
  | reg        -- a register
  | imm8       -- 0x0 to 0xFF
  | imm16      -- 0x0 to 0xFFFF, or a label
  | labelOnly  -- a label
  | shamt      -- 0x0 to 0xF
  deriving DecidableEq, Repr

/-- The operands of each mnemonic in the order they are written (R94; R160 to R173). -/
def Mnemonic.signature : Mnemonic → List OperandKind
  | .hw .add | .hw .and | .hw .beq | .hw .bsr | .hw .nor | .hw .or | .hw .sll | .hw .slt | .hw .xor | .hw .srl =>
    [.reg, .reg, .reg]
  | .hw .jr | .hw .jrl => [.reg]
  | .hw .lui | .hw .ori => [.reg, .imm8]
  | .hw .lw | .hw .sw => [.reg, .reg]
  | .ps .li => [.reg, .imm16]
  | .ps .addi | .ps .andi => [.reg, .imm16, .reg]
  | .ps .sub => [.reg, .reg, .reg]
  | .ps .lwo | .ps .swo => [.reg, .reg, .imm16]
  | .ps .push | .ps .pop => [.reg]
  | .ps .call | .ps .jmp => [.labelOnly]
  | .ps .jeq => [.reg, .reg, .labelOnly]
  | .ps .slli | .ps .srli | .ps .bsri => [.shamt, .reg, .reg]

end Sys2Proof
end

