-- ==== Sys2Proof/WellFormed.lean ====
section
/-! DEFINITION. The checks on terms that can be ill-formed. A hardware instruction cannot be: its fields are bit vectors of
the encoding's widths (Syntax.lean). What can be ill-formed is a source statement (30_encoding.md R93, R94;
45_pseudo_instructions.md R163), which the assembler refuses, and a launch (20_memory.md R53, 70_reset_and_hazards.md
R221), which `launch` refuses. Each check has a smoke test in Tests/Slice0.lean. -/

namespace Sys2Proof

/-! ### Source statements -/

/-- An operand is of the kind its position admits, and a number is in range (R93). -/
def Operand.fits : OperandKind → Operand → Bool
  | .reg, .reg _ => true
  | .imm8, .imm n => decide (n < 0x100)
  | .imm16, .imm n => decide (n < 0x10000)
  | .imm16, .label _ => true
  | .labelOnly, .label _ => true
  | .shamt, .imm n => decide (n < 0x10)
  | _, _ => false

/-- As many operands as the signature has, each fitting its position (R94). -/
def fitsAll : List OperandKind → List Operand → Bool
  | [], [] => true
  | k :: ks, o :: os => o.fits k && fitsAll ks os
  | _, _ => false

/-- "Using the same register as rt and rd is not allowed" (R163): `sub`'s second and third operands differ. -/
def subOperandsDiffer : List Operand → Bool
  | [_, rt, rd] => decide (rt ≠ rd)
  | _ => true

/-- A well-formed statement (R93, R94, R163). -/
def Stmt.wf (t : Stmt) : Bool :=
  fitsAll t.mnemonic.signature t.operands &&
    match t.mnemonic with
    | .ps .sub => subOperandsDiffer t.operands
    | _ => true

/-! ### Launches -/

/-- An address is even (R52, R53). -/
def isEven (a : Word) : Bool := !a.getLsbD 0

/-- The words of an image lie at even, implemented addresses (R6 `MEM_INIT`, `MEM_IMPLEMENTED`). DESIGN CHOICE (log 25): a launch
with any other image is refused. -/
def imageOk (c : Config) (image : List (Word × Word)) : Bool :=
  image.all fun p => isEven p.1 && c.memImplemented p.1

/-- A launch that is not refused: `RESET_PC` is even and implemented (R221), and so is every word of `MEM_INIT`. Of these the spec
says of the odd `RESET_PC` alone that it is refused; the others are a DESIGN CHOICE (log 25). -/
def Config.launchable (c : Config) : Bool :=
  isEven c.resetPc && c.memImplemented c.resetPc && imageOk c c.memInit

end Sys2Proof
end

