-- ==== Sys2Proof/Machine/Ops.lean ====
section
/-! DEFINITION. The operations every instruction is written over: raising a fault (60_exceptions.md R190), registers
(10_state.md R21, R22), the program counter (R25, R26), the alignment checks (20_memory.md R52, 41_control_transfer.md
R120) and the memory accesses (R54, R55). -/

namespace Sys2Proof.Machine

/-- What an operation answers: a value, a fault or a refusal. -/
abbrev Result (α : Type) := Host.Outcome α Fault Refusal

/-- Go on with the value of `r`, if it has one; a fault or refusal ends the instruction there. -/
def andThen {α β : Type} (r : Result α) (f : α → Result β) : Result β :=
  match r with
  | .next a => f a
  | .fault e => .fault e
  | .refused e => .refused e

/-- Raise a fault (R190): it records the pc of the instruction, and nothing of the state is written because there is no
next state. The MF16 has no other exception: no trap entry and no return from one (R199, R196). -/
def raise {α : Type} (s : State) (kind : Word → Fault) : Result α := .fault (kind s.pc)

/-! ### Registers (R21, R22) -/

/-- `x[r]`; register 0 reads as zero in every state (R21). -/
def State.getReg (s : State) (r : Reg) : Word :=
  if h : r = 0#4 then 0#16 else s.regs[r.toNat - 1]'(by have := r.isLt; have : r.toNat ≠ 0 := fun e => h (BitVec.eq_of_toNat_eq e); omega)

/-- `x[r] <- v`; a write to register 0 is discarded (R21, D6; log 9). -/
def State.setReg (s : State) (r : Reg) (v : Word) : State :=
  if h : r = 0#4 then s
  else { s with regs := s.regs.set (r.toNat - 1) v (by have := r.isLt; have : r.toNat ≠ 0 := fun e => h (BitVec.eq_of_toNat_eq e); omega) }

/-! ### The program counter (R25, R26) -/

/-- `nextpc`, `(pc + 2) mod 2^16` (R26; the wrap is D13; log 10). -/
def State.nextPc (s : State) : Word := s.pc + 2#16

/-- The implicit end of an instruction that is no taken transfer: `pc <- nextpc` (R9, R26). -/
def State.advance (s : State) : State := { s with pc := s.nextPc }

/-- A taken transfer to `t` (R124). Without a delay slot, the modelled machine's setting, `pc <- t`. Under
`DELAY_SLOT = true` the instruction after this one runs first (D5; log 4). -/
def State.transfer (s : State) (c : Config) (t : Word) : State :=
  if c.delaySlot then { s with pc := s.nextPc, delayed := some t } else { s with pc := t }

/-- Run an instruction, a delay slot's instruction as such: its successor is the target that waits. Without a delay slot
this is just running it (R124, R223). DESIGN CHOICE (log 22): no rule says what a taken transfer in a delay slot does under
`DELAY_SLOT = true`; here the instruction at the first target runs next, as that transfer's own slot, and the second target
after it. -/
def runDecoded (c : Config) (run : State → Result State) (s : State) : Result State :=
  match c.delaySlot, s.delayed with
  | true, some d => andThen (run { s with delayed := none }) fun t => .next { t with pc := d }
  | _, _ => run s

/-- The end of an instruction whose only result is one register: write it and advance (R11, R116, R132). -/
def finish (r : Reg) (v : Word) (s : State) : Result State := .next (s.setReg r v).advance

/-! ### Alignment (R52, R120) -/

/-- An address whose bit 0 "must be zero", under the setting for odd ones: the address used, or the fault. -/
def aligned (policy : OddPolicy) (kind : Word → Word → Fault) (s : State) (a : Word) : Result Word :=
  if isEven a then .next a
  else match policy with
    | .fault => raise s (kind a)
    | .ignoreBit0 => .next (a &&& 0xFFFE#16)

/-- The word address a data access at `a` uses (R52, D2). -/
def dataAddress (c : Config) (s : State) (a : Word) : Result Word :=
  aligned c.misalignedData .misalignedData s a

/-- The address a transfer to `a` goes to (R120, D3, D22; log 6). -/
def targetAddress (c : Config) (s : State) (a : Word) : Result Word :=
  aligned c.misalignedTarget .misalignedTarget s a

/-! ### Memory (R54, R55) -/

/-- An even address that has a word (R195). -/
def implemented (c : Config) (s : State) (a : Word) : Result Word :=
  if c.memImplemented a then .next a else raise s (.unimplementedMemory a)

/-- The word at an even address, which must be implemented and hold a value (R54, R56). -/
def readWord (c : Config) (s : State) (a : Word) : Result Word :=
  andThen (implemented c s a) fun a =>
    match Memory.readWord s.mem a with
    | some v => .next v
    | none => raise s (.uninitialisedRead a)

/-- `MemRead(a, 2)` (R54): alignment, then existence, then a value; in the order of R197 (4) to (6). -/
def memRead (c : Config) (s : State) (a : Word) : Result Word :=
  andThen (dataAddress c s a) (readWord c s)

/-- `MemWrite(a, 2, v)` (R55): alignment, then existence; then the word at `a` is `v` and every other word as it was. -/
def memWrite (c : Config) (s : State) (a v : Word) : Result State :=
  andThen (dataAddress c s a) fun a =>
    andThen (implemented c s a) fun a =>
      .next { s with mem := Memory.writeWord s.mem a v }

end Sys2Proof.Machine
end

