-- ==== Sys2Proof/Machine/Operands.lean ====
section
/-! DEFINITION. The operand forms (30_encoding.md R85): the shift amount, the two readings of the 8-bit immediate, the
register-indirect address and the link. -/

namespace Sys2Proof.Machine

/-- `shamt = x[rs][3:0]`, a number 0 to 15; bits 15:4 are ignored (R153). -/
def shiftAmount (v : Word) : Nat := (v.extractLsb' 0 4).toNat

/-- `lui`'s operand, `imm ++ zeros(8)` (R85, R130). -/
def upperImmediate (imm : Byte) : Word := imm ++ 0#8

/-- `ori`'s operand, `zext_16(imm)`, never sign-extended (R85, R131). -/
def zeroExtended (imm : Byte) : Word := 0#8 ++ imm

/-- `ror16(v, n)` for `n` in 0 to 15 (R9). -/
def ror16 (v : Word) (n : Nat) : Word := (v >>> n) ||| (v <<< (16 - n))

/-- `signed(v)`, the two's-complement value of a word (R9, R10). -/
def signed (v : Word) : Int := if v.getLsbD 15 then (v.toNat : Int) - 65536 else v.toNat

/-- The effective address of `lw` and `sw`: `x[rt]`, with no offset, index or update (R142). -/
def effectiveAddress (s : State) (rt : Reg) : Word := s.getReg rt

/-- `LINK_OFFSET` as a number of bytes (R6). -/
def linkBytes : LinkOffset → Word
  | .two => 2#16
  | .four => 4#16

/-- The link `jrl` writes: `pc + LINK_OFFSET`, under the modelled setting the address of the next instruction (R123, R124;
log 4). -/
def linkValue (c : Config) (s : State) : Word := s.pc + linkBytes c.linkOffset

end Sys2Proof.Machine
end

