-- ==== Sys2Proof/Machine/Flags.lean ====
section
/-! DEFINITION. The MF16 has no flags, condition codes or predicates (10_state.md R28). What it has instead are two
comparisons: `beq` makes its own, and `slt` delivers one into a general register. -/

namespace Sys2Proof.Machine

/-- `beq`'s comparison: equality of all 16 bits; signedness plays no part (R121). -/
def wordsEqual (a b : Word) : Bool := decide (a = b)

/-- `slt`'s comparison: the exact comparison of the two signed values, also where their difference does not fit 16 bits
(R114 point 3; D8; log 11). -/
def signedLess (a b : Word) : Bool := decide (signed a < signed b)

/-- What `slt` writes: 1 when the comparison holds, and `SLT_FALSE_VALUE` when not (R114 points 1 and 2; log 8). -/
def sltResult (c : Config) (a b : Word) : Word := if signedLess a b then 1#16 else c.sltFalseValue

end Sys2Proof.Machine
end

