-- ==== Sys2Proof/Machine/ArithLogic.lean ====
section
/-! DEFINITION. `add`, `and`, `nor`, `or`, `slt`, `xor` (40_arith_logic.md R110 to R117). Both sources are read before `rd`
is written; nothing faults and no memory is touched (R116). -/

namespace Sys2Proof.Machine

/-- R110: addition modulo 2^16, the carry dropped. -/
def execAdd (rs rt rd : Reg) (s : State) : Host.Outcome State Fault Refusal :=
  finish rd (s.getReg rs + s.getReg rt) s

/-- R111. -/
def execAnd (rs rt rd : Reg) (s : State) : Host.Outcome State Fault Refusal :=
  finish rd (s.getReg rs &&& s.getReg rt) s

/-- R112: the complement of the or. -/
def execNor (rs rt rd : Reg) (s : State) : Host.Outcome State Fault Refusal :=
  finish rd (~~~(s.getReg rs ||| s.getReg rt)) s

/-- R113. -/
def execOr (rs rt rd : Reg) (s : State) : Host.Outcome State Fault Refusal :=
  finish rd (s.getReg rs ||| s.getReg rt) s

/-- R114 under any settings: `rd` is written whether or not the comparison holds. -/
def sltUnder (c : Config) (rs rt rd : Reg) (s : State) : Host.Outcome State Fault Refusal :=
  finish rd (sltResult c (s.getReg rs) (s.getReg rt)) s

/-- R114. -/
def execSlt (rs rt rd : Reg) (s : State) : Host.Outcome State Fault Refusal := sltUnder settings rs rt rd s

/-- R115. -/
def execXor (rs rt rd : Reg) (s : State) : Host.Outcome State Fault Refusal :=
  finish rd (s.getReg rs ^^^ s.getReg rt) s

end Sys2Proof.Machine
end

