-- ==== Sys2Proof/Machine/Control.lean ====
section
/-! DEFINITION. `beq`, `jr`, `jrl` (41_control_transfer.md R120 to R125): the target is the absolute address `x[rd]`. -/

namespace Sys2Proof.Machine

/-- R121 under any settings: the target is checked whether or not the branch is taken (R120, D22; log 6). -/
def beqUnder (c : Config) (rs rt rd : Reg) (s : State) : Host.Outcome State Fault Refusal :=
  andThen (targetAddress c s (s.getReg rd)) fun t =>
    .next (if wordsEqual (s.getReg rs) (s.getReg rt) then s.transfer c t else s.advance)

/-- R122 under any settings. -/
def jrUnder (c : Config) (rd : Reg) (s : State) : Host.Outcome State Fault Refusal :=
  andThen (targetAddress c s (s.getReg rd)) fun t => .next (s.transfer c t)

/-- R123 under any settings: the target is read before `$ra` is written (R125). -/
def jrlUnder (c : Config) (rd : Reg) (s : State) : Host.Outcome State Fault Refusal :=
  andThen (targetAddress c s (s.getReg rd)) fun t =>
    .next ((s.setReg Reg.ra (linkValue c s)).transfer c t)

/-- R121. -/
def execBeq (rs rt rd : Reg) (s : State) : Host.Outcome State Fault Refusal := beqUnder settings rs rt rd s

/-- R122. -/
def execJr (rd : Reg) (s : State) : Host.Outcome State Fault Refusal := jrUnder settings rd s

/-- R123. -/
def execJrl (rd : Reg) (s : State) : Host.Outcome State Fault Refusal := jrlUnder settings rd s

end Sys2Proof.Machine
end

