-- ==== Sys2Proof/Machine/Immediate.lean ====
section
/-! DEFINITION. `lui` and `ori` (42_immediate.md R130 to R132). `rs` is the destination of both. -/

namespace Sys2Proof.Machine

/-- R130: the old value of `rs` is not read. -/
def execLui (rs : Reg) (imm : Byte) (s : State) : Host.Outcome State Fault Refusal :=
  finish rs (upperImmediate imm) s

/-- R131 (the destination is `rs`, C5). -/
def execOri (rs : Reg) (imm : Byte) (s : State) : Host.Outcome State Fault Refusal :=
  finish rs (s.getReg rs ||| zeroExtended imm) s

end Sys2Proof.Machine
end

