-- ==== Sys2Proof/Machine/LoadStore.lean ====
section
/-! DEFINITION. `lw` and `sw` (43_load_store.md R140 to R142). -/

namespace Sys2Proof.Machine

/-- R140 under any settings: the destination is `rs` (C3). The read and its checks happen for `rs = 0` too (R21). -/
def lwUnder (c : Config) (rs rt : Reg) (s : State) : Host.Outcome State Fault Refusal :=
  andThen (memRead c s (effectiveAddress s rt)) fun v => finish rs v s

/-- R141 under any settings: store `x[rs]` at `x[rt]` (C4). -/
def swUnder (c : Config) (rs rt : Reg) (s : State) : Host.Outcome State Fault Refusal :=
  andThen (memWrite c s (effectiveAddress s rt) (s.getReg rs)) fun t => .next t.advance

/-- R140. -/
def execLw (rs rt : Reg) (s : State) : Host.Outcome State Fault Refusal := lwUnder settings rs rt s

/-- R141. -/
def execSw (rs rt : Reg) (s : State) : Host.Outcome State Fault Refusal := swUnder settings rs rt s

end Sys2Proof.Machine
end

