-- ==== Sys2Proof/Machine/Shift.lean ====
section
/-! DEFINITION. `bsr`, `sll`, `srl` (44_shift_rotate.md R150 to R153): `rs` holds the amount, `rt` the value. -/

namespace Sys2Proof.Machine

/-- R150: rotate right; no bit is lost. -/
def execBsr (rs rt rd : Reg) (s : State) : Host.Outcome State Fault Refusal :=
  finish rd (ror16 (s.getReg rt) (shiftAmount (s.getReg rs))) s

/-- R151 (the slice is `15-shamt..0`, C6). -/
def execSll (rs rt rd : Reg) (s : State) : Host.Outcome State Fault Refusal :=
  finish rd (s.getReg rt <<< shiftAmount (s.getReg rs)) s

/-- R152: logical, zeros enter at the top (C7). -/
def execSrl (rs rt rd : Reg) (s : State) : Host.Outcome State Fault Refusal :=
  finish rd (s.getReg rt >>> shiftAmount (s.getReg rs)) s

end Sys2Proof.Machine
end

