-- ==== Sys2Proof/Machine/Dispatch.lean ====
section
/-! DEFINITION. `exec`: one arm per hardware instruction (30_encoding.md R84), each a call of its meaning. -/

namespace Sys2Proof.Machine

def exec (i : Instr) (s : State) : Host.Outcome State Fault Refusal :=
  match i with
  | .add rs rt rd => Sys2Proof.Machine.execAdd rs rt rd s
  | .and rs rt rd => Sys2Proof.Machine.execAnd rs rt rd s
  | .beq rs rt rd => Sys2Proof.Machine.execBeq rs rt rd s
  | .jr rd => Sys2Proof.Machine.execJr rd s
  | .jrl rd => Sys2Proof.Machine.execJrl rd s
  | .lui rs imm => Sys2Proof.Machine.execLui rs imm s
  | .lw rs rt => Sys2Proof.Machine.execLw rs rt s
  | .bsr rs rt rd => Sys2Proof.Machine.execBsr rs rt rd s
  | .nor rs rt rd => Sys2Proof.Machine.execNor rs rt rd s
  | .or rs rt rd => Sys2Proof.Machine.execOr rs rt rd s
  | .ori rs imm => Sys2Proof.Machine.execOri rs imm s
  | .sll rs rt rd => Sys2Proof.Machine.execSll rs rt rd s
  | .slt rs rt rd => Sys2Proof.Machine.execSlt rs rt rd s
  | .xor rs rt rd => Sys2Proof.Machine.execXor rs rt rd s
  | .srl rs rt rd => Sys2Proof.Machine.execSrl rs rt rd s
  | .sw rs rt => Sys2Proof.Machine.execSw rs rt s

end Sys2Proof.Machine
end

