-- ==== Sys2Proof/Decode.lean ====
section
/-! DEFINITION. The encoding (30_encoding.md R80 to R88): the opcode map, decoding of a word and of bytes, encoding, and
the rows of spec/opcode_table.json. Decoding is total: a word is one of the sixteen instructions or a reserved encoding,
and never anything else (R83, R87, R88). -/

namespace Sys2Proof

/-- Why bytes are no instruction. -/
inductive DecodeError where
  /-- a non-zero should-be-zero field of `jr`, `jrl`, `lw` or `sw` (R87); raised by `decode` under `SBZ_NONZERO = fault` -/
  | reservedEncoding (w : Word)
  /-- fewer than the two bytes every instruction has (R82); raised by `decodeBytes` -/
  | truncated
  deriving DecidableEq, Repr

/-! ### Fields (R80, R81, R9 `fields`) -/

def opField (w : Word) : BitVec 4 := w.extractLsb' 12 4
def rsField (w : Word) : Reg := w.extractLsb' 8 4
def rtField (w : Word) : Reg := w.extractLsb' 4 4
def rdField (w : Word) : Reg := w.extractLsb' 0 4
def immField (w : Word) : Byte := w.extractLsb' 0 8

/-! ### The opcode map (R84) -/

/-- The opcode of each value of bits 15:12; the space is full (R88). -/
def opcodes : Vector Opcode 16 :=
  #v[.add, .and, .beq, .jr, .jrl, .lui, .lw, .bsr, .nor, .or, .ori, .sll, .slt, .xor, .srl, .sw]

/-- The opcode a word selects: bits 15:12 alone (R83). -/
def opcodeOf (w : Word) : Opcode := opcodes[(opField w).toNat]'(opField w).isLt

/-- The four bits of an opcode (the OPCODE column of R84). -/
def Opcode.bits : Opcode → BitVec 4
  | .add => 0x0#4
  | .and => 0x1#4
  | .beq => 0x2#4
  | .jr => 0x3#4
  | .jrl => 0x4#4
  | .lui => 0x5#4
  | .lw => 0x6#4
  | .bsr => 0x7#4
  | .nor => 0x8#4
  | .or => 0x9#4
  | .ori => 0xA#4
  | .sll => 0xB#4
  | .slt => 0xC#4
  | .xor => 0xD#4
  | .srl => 0xE#4
  | .sw => 0xF#4

/-! ### Decoding -/

/-- The should-be-zero check of R87 under the setting of `SBZ_NONZERO`: the instruction, or a reserved encoding. -/
def checkSbz (c : Config) (w : Word) (sbzZero : Bool) (i : Instr) : Except DecodeError Instr :=
  match sbzZero, c.sbzNonzero with
  | false, .fault => .error (.reservedEncoding w)
  | _, _ => .ok i

/-- The instruction of a word: the opcode selects it (R83, R84), then the should-be-zero fields are checked (R86, R87). -/
def decode (c : Config) (w : Word) : Except DecodeError Instr :=
  match opcodeOf w with
  | .add => .ok (.add (rsField w) (rtField w) (rdField w))
  | .and => .ok (.and (rsField w) (rtField w) (rdField w))
  | .beq => .ok (.beq (rsField w) (rtField w) (rdField w))
  | .jr => checkSbz c w (rsField w == 0#4 && rtField w == 0#4) (.jr (rdField w))
  | .jrl => checkSbz c w (rsField w == 0#4 && rtField w == 0#4) (.jrl (rdField w))
  | .lui => .ok (.lui (rsField w) (immField w))
  | .lw => checkSbz c w (rdField w == 0#4) (.lw (rsField w) (rtField w))
  | .bsr => .ok (.bsr (rsField w) (rtField w) (rdField w))
  | .nor => .ok (.nor (rsField w) (rtField w) (rdField w))
  | .or => .ok (.or (rsField w) (rtField w) (rdField w))
  | .ori => .ok (.ori (rsField w) (immField w))
  | .sll => .ok (.sll (rsField w) (rtField w) (rdField w))
  | .slt => .ok (.slt (rsField w) (rtField w) (rdField w))
  | .xor => .ok (.xor (rsField w) (rtField w) (rdField w))
  | .srl => .ok (.srl (rsField w) (rtField w) (rdField w))
  | .sw => checkSbz c w (rdField w == 0#4) (.sw (rsField w) (rtField w))

/-! ### Words written as bytes

Memory holds words, and no rule of the machine splits one (R50). A file may write words as bytes; in which order is
`BYTE_ORDER`, which is open (D1), so the order is an argument here. -/

/-- The word of the bytes at an even address and at the odd address after it (R6 `BYTE_ORDER`). -/
def wordOfBytes : ByteOrder → Byte → Byte → Word
  | .big, p, q => p ++ q
  | .little, p, q => q ++ p

/-- The two bytes of a word in rising order of address (R6 `BYTE_ORDER`). -/
def bytesOfWord (o : ByteOrder) (w : Word) : List Byte :=
  match o with
  | .big => [w.extractLsb' 8 8, w.extractLsb' 0 8]
  | .little => [w.extractLsb' 0 8, w.extractLsb' 8 8]

/-- The instruction at the front of a byte sequence and the bytes after it; always two bytes (R82, R51). -/
def decodeBytes (o : ByteOrder) (c : Config) : List Byte → Except DecodeError (Instr × List Byte)
  | p :: q :: rest => (decode c (wordOfBytes o p q)).map fun i => (i, rest)
  | _ => .error .truncated

/-! ### Encoding -/

/-- R-type: OPCODE, rs, rt, rd from the high bits down (R80). -/
def encodeR (op : Opcode) (rs rt rd : Reg) : Word := op.bits ++ rs ++ rt ++ rd

/-- I-type: OPCODE, rs, immediate (R81). -/
def encodeI (op : Opcode) (rs : Reg) (imm : Byte) : Word := op.bits ++ rs ++ imm

/-- The word of an instruction (R84), zeros in the should-be-zero fields (R86). -/
def encode : Instr → Word
  | .add rs rt rd => encodeR .add rs rt rd
  | .and rs rt rd => encodeR .and rs rt rd
  | .beq rs rt rd => encodeR .beq rs rt rd
  | .jr rd => encodeR .jr 0#4 0#4 rd
  | .jrl rd => encodeR .jrl 0#4 0#4 rd
  | .lui rs imm => encodeI .lui rs imm
  | .lw rs rt => encodeR .lw rs rt 0#4
  | .bsr rs rt rd => encodeR .bsr rs rt rd
  | .nor rs rt rd => encodeR .nor rs rt rd
  | .or rs rt rd => encodeR .or rs rt rd
  | .ori rs imm => encodeI .ori rs imm
  | .sll rs rt rd => encodeR .sll rs rt rd
  | .slt rs rt rd => encodeR .slt rs rt rd
  | .xor rs rt rd => encodeR .xor rs rt rd
  | .srl rs rt rd => encodeR .srl rs rt rd
  | .sw rs rt => encodeR .sw rs rt 0#4

/-- An instruction's two bytes in rising order of address. -/
def encodeBytes (o : ByteOrder) (i : Instr) : List Byte := bytesOfWord o (encode i)

/-! ### The opcode table -/

/-- One row of spec/opcode_table.json: a word `w` is the row's instruction when `w &&& mask = matchBits`. -/
structure OpcodeRow where
  op : Opcode
  matchBits : Word
  mask : Word
  deriving DecidableEq, Repr

/-- The rows of spec/opcode_table.json; the masks of `jr`, `jrl`, `lw` and `sw` take in their should-be-zero bits. -/
def opcodeTable : List OpcodeRow :=
  [ ⟨.add, 0x0000, 0xF000⟩, ⟨.and, 0x1000, 0xF000⟩, ⟨.beq, 0x2000, 0xF000⟩, ⟨.jr, 0x3000, 0xFFF0⟩,
    ⟨.jrl, 0x4000, 0xFFF0⟩, ⟨.lui, 0x5000, 0xF000⟩, ⟨.lw, 0x6000, 0xF00F⟩, ⟨.bsr, 0x7000, 0xF000⟩,
    ⟨.nor, 0x8000, 0xF000⟩, ⟨.or, 0x9000, 0xF000⟩, ⟨.ori, 0xA000, 0xF000⟩, ⟨.sll, 0xB000, 0xF000⟩,
    ⟨.slt, 0xC000, 0xF000⟩, ⟨.xor, 0xD000, 0xF000⟩, ⟨.srl, 0xE000, 0xF000⟩, ⟨.sw, 0xF000, 0xF00F⟩ ]

/-- The instruction the machine's decoder reads from the word of the `nbits` low bits of `w`, every higher bit zero. No
instruction is longer than 16 bits (R82). -/
def decodeTableWord (nbits w : Nat) : Option Instr :=
  if nbits ≤ 16 then (decode settings (BitVec.ofNat 16 (w % 2 ^ nbits))).toOption else none

end Sys2Proof
end

