-- ==== Sys2Proof/Machine/Fetch.lean ====
section
/-! DEFINITION. Fetching and decoding the instruction at the pc (20_memory.md R51, R53, R56; 60_exceptions.md R193, R197). -/

namespace Sys2Proof.Machine

/-- `Fetch(pc)` (R56): the word at the pc, which must exist and hold a value. An odd pc is no state of a launched machine
(R27, R53) and is refused. -/
def fetch (c : Config) (s : State) : Result Word :=
  if isEven s.pc then readWord c s s.pc else .refused (.oddProgramCounter s.pc)

/-- Decode a fetched word; a reserved encoding faults without changing any state (R87, R193). -/
def decodeFetched (c : Config) (s : State) (w : Word) : Result Instr :=
  match decode c w with
  | .ok i => .next i
  | .error _ => raise s (.reservedEncoding w)

/-- The instruction at the pc: fetch first, then decode (R197 (1), (2)). -/
def fetchInstr (c : Config) (s : State) : Result Instr :=
  andThen (fetch c s) (decodeFetched c s)

/-- The state with a word stored where `fetch` reads (an odd pc, which cannot fetch, made even). -/
def placeWord (s : State) (w : Word) : State :=
  let at0 := s.pc &&& 0xFFFE#16
  { s with pc := at0, mem := Memory.writeWord s.mem at0 w }

end Sys2Proof.Machine
end

