-- ==== Sys2Proof/Machine/Step.lean ====
section
/-! DEFINITION. One step is one whole instruction: fetch, decode, execute, write back (00_scope.md R11). -/

namespace Sys2Proof.Machine

/-- One instruction (R11). Its faults come in the order of R197. -/
def step (s : State) : Host.Outcome State Fault Refusal :=
  andThen (fetchInstr settings s) fun i => runDecoded settings (exec i) s

/-- The state with an instruction stored at the pc, where `step` fetches next: the low `nbits` bits of `w`, every higher
bit zero. Every instruction is 16 bits (R82). -/
def State.withFetchWord (s : State) (nbits w : Nat) : State :=
  placeWord s (BitVec.ofNat 16 (w % 2 ^ nbits))

end Sys2Proof.Machine
end

