-- ==== Sys2Proof/Machine/AnyConfig.lean ====
section
/-! DEFINITION. The machine under any settings of the parameters (00_scope.md R6): an instruction, a step and a run that take
them as an argument. The modelled machine's `exec` and `step` are these under `settings` (Laws/AnyConfig.lean). -/

namespace Sys2Proof.Machine

/-- An instruction under the settings `c`. The instructions that no parameter bears on are those of `exec`. -/
def execWith (c : Config) (i : Instr) (s : State) : Host.Outcome State Fault Refusal :=
  match i with
  | .add rs rt rd => execAdd rs rt rd s
  | .and rs rt rd => execAnd rs rt rd s
  | .beq rs rt rd => beqUnder c rs rt rd s
  | .jr rd => jrUnder c rd s
  | .jrl rd => jrlUnder c rd s
  | .lui rs imm => execLui rs imm s
  | .lw rs rt => lwUnder c rs rt s
  | .bsr rs rt rd => execBsr rs rt rd s
  | .nor rs rt rd => execNor rs rt rd s
  | .or rs rt rd => execOr rs rt rd s
  | .ori rs imm => execOri rs imm s
  | .sll rs rt rd => execSll rs rt rd s
  | .slt rs rt rd => sltUnder c rs rt rd s
  | .xor rs rt rd => execXor rs rt rd s
  | .srl rs rt rd => execSrl rs rt rd s
  | .sw rs rt => swUnder c rs rt s

/-- One instruction under the settings `c` (R11), its faults in the order of R197. -/
def stepWith (c : Config) (s : State) : Host.Outcome State Fault Refusal :=
  andThen (fetchInstr c s) fun i => runDecoded c (execWith c i) s

/-- `n` steps under the settings `c`, from a state that a launch with `c` gives (R6, R221). -/
def runWith (c : Config) : Nat → State → Host.Outcome State Fault Refusal
  | 0, s => .next s
  | n + 1, s => andThen (stepWith c s) (runWith c n)

end Sys2Proof.Machine
end

