-- ==== Sys2Proof/Machine/Pseudo.lean ====
section
/-! DEFINITION. The fourteen pseudo-instructions as the assembler replaces them (45_pseudo_instructions.md R160 to R177):
fixed sequences of hardware instructions, which the CPU runs one by one like any others (R174). -/

namespace Sys2Proof

/-- `imm16[15:8]` and `imm16[7:0]`. -/
def highByte (v : Word) : Byte := v.extractLsb' 8 8
def lowByte (v : Word) : Byte := v.extractLsb' 0 8

/-- `li rs,imm16` (R160); both words always (R95). -/
def expandLi (rs : Reg) (v : Word) : List Instr := [.lui rs (highByte v), .ori rs (lowByte v)]

/-- `addi rs,imm16,rd` (R161), through `$at`. -/
def expandAddi (rs : Reg) (v : Word) (rd : Reg) : List Instr := expandLi .at v ++ [.add rs .at rd]

/-- `push rs` (R166): `addi $sp,0xFFFE,$sp`, then the store. -/
def expandPush (rs : Reg) : List Instr := expandAddi .sp 0xFFFE#16 .sp ++ [.sw rs .sp]

/-- `pop rs` (R167): the load, then `addi $sp,0x2,$sp`. -/
def expandPop (rs : Reg) : List Instr := [.lw rs .sp] ++ expandAddi .sp 0x2#16 .sp

/-- The hardware instructions of a pseudo-instruction, nested ones expanded to the bottom (R95, R160 to R173). -/
def Pseudo.expand : Pseudo Word → List Instr
  | .li rs v => expandLi rs v
  | .addi rs v rd => expandAddi rs v rd
  | .andi rs v rd => expandLi .at v ++ [.and rs .at rd]
  | .sub rs rt rd => expandPush rt ++ [.nor rt .zero rt] ++ expandAddi rt 0x1#16 rt ++ [.add rs rt rd] ++ expandPop rt
  | .lwo rs rt v => expandAddi rt v .at ++ [.lw rs .at]
  | .swo rs rt v => expandAddi rt v .at ++ [.sw rs .at]
  | .push rs => expandPush rs
  | .pop rs => expandPop rs
  | .call f => expandLi .la f ++ expandPush .ra ++ [.jrl .la] ++ expandPop .ra
  | .jmp l => expandLi .la l ++ [.jr .la]
  | .jeq rs rt l => expandLi .la l ++ [.beq rs rt .la]
  | .slli n rt rd => expandLi .at (n.setWidth 16) ++ [.sll .at rt rd]
  | .srli n rt rd => expandLi .at (n.setWidth 16) ++ [.srl .at rt rd]
  | .bsri n rt rd => expandLi .at (n.setWidth 16) ++ [.bsr .at rt rd]

/-- "Number of hardware instructions" of each box, whatever the operand values (R174). -/
def Pseudo.size {α : Type} : Pseudo α → Nat
  | .li _ _ => 2
  | .addi _ _ _ => 3
  | .andi _ _ _ => 3
  | .sub _ _ _ => 13
  | .lwo _ _ _ => 4
  | .swo _ _ _ => 4
  | .push _ => 4
  | .pop _ => 4
  | .call _ => 11
  | .jmp _ => 3
  | .jeq _ _ _ => 3
  | .slli _ _ _ => 3
  | .srli _ _ _ => 3
  | .bsri _ _ _ => 3

/-- Replace each immediate by its value, where every one has a value (an undefined label has none). -/
def Pseudo.resolve {α : Type} (value : α → Option Word) : Pseudo α → Option (Pseudo Word)
  | .li rs a => (value a).map (.li rs)
  | .addi rs a rd => (value a).map (.addi rs · rd)
  | .andi rs a rd => (value a).map (.andi rs · rd)
  | .sub rs rt rd => some (.sub rs rt rd)
  | .lwo rs rt a => (value a).map (.lwo rs rt)
  | .swo rs rt a => (value a).map (.swo rs rt)
  | .push rs => some (.push rs)
  | .pop rs => some (.pop rs)
  | .call a => (value a).map .call
  | .jmp a => (value a).map .jmp
  | .jeq rs rt a => (value a).map (.jeq rs rt)
  | .slli n rt rd => some (.slli n rt rd)
  | .srli n rt rd => some (.srli n rt rd)
  | .bsri n rt rd => some (.bsri n rt rd)

namespace Machine

/-- Run instructions one after another in the order written, as the CPU runs a straight-line sequence (R174). -/
def execSeq : List Instr → State → Result State
  | [], s => .next s
  | i :: rest, s => andThen (exec i s) (execSeq rest)

end Machine

end Sys2Proof
end

