-- ==== Sys2Proof/Machine/Assembler.lean ====
section
/-! DEFINITION. The assembler (30_encoding.md R89 to R97): lines, labels, operands, directives, the location counter, and
the words it emits. It refuses what the source does not say it accepts (R93, 91_not_in_source.md N14, D20; log 17). Text is
a list of characters. -/

namespace Sys2Proof

/-- Why the assembler refuses a source text. -/
inductive AsmError where
  | labelWithoutStatement   -- a label alone on its line (R89, N14)
  | badLabelName            -- not letters and digits, or a digit first (R90, N14)
  | unknownMnemonic         -- no instruction, pseudo-instruction or directive of that name (R94)
  | badOperand              -- no register, hexadecimal number or label use (R91 to R93)
  | illFormedStatement      -- operands that `Stmt.wf` refuses (R93, R94, R163)
  | duplicateLabel          -- a second definition of a name (R90, N14)
  | undefinedLabel          -- a use of a name that no line defines (R90, N14)
  | asciizWithoutLabel      -- the directive outside its format `Labelname: .asciiz text` (R97)
  | hashInAsciiz            -- which of R89 and R97 wins is not stated (R97, N14)
  | asciizPackingOpen       -- no layout was supplied (R97, D17)
  | oddLoadBase             -- `LOAD_BASE` is an even address (R6); that an odd one is refused: DESIGN CHOICE (log 25)
  | pastEndOfMemory         -- a word beyond address 0xFFFE (R5)
  deriving DecidableEq, Repr

/-- A statement after checking: a hardware instruction, or a pseudo-instruction whose labels are still names. -/
inductive Code where
  | hw (i : Instr)
  | ps (p : Pseudo Imm16)
  deriving DecidableEq, Repr

/-- What a line emits. -/
inductive Item where
  | code (c : Code)
  | data (text : List Char)   -- the text of `.asciiz`, before the appended newline and NUL (R97)
  deriving DecidableEq, Repr

/-- A line that emits something, with the label it defines. -/
structure SrcLine where
  label : Option LabelName
  item : Item
  deriving DecidableEq, Repr

/-! ### Characters -/

/-- White space within a line. DESIGN CHOICE (log 23): the source does not say what white space is or what ends a line; here a
line ends at a newline alone, and blank, tab and carriage return are white space. -/
def isSpace (ch : Char) : Bool := ch == ' ' || ch == '\t' || ch == '\r'

def trimLeft (l : List Char) : List Char := l.dropWhile isSpace

def trimRight (l : List Char) : List Char := (l.reverse.dropWhile isSpace).reverse

def isDigit (ch : Char) : Bool := decide ('0'.toNat ≤ ch.toNat) && decide (ch.toNat ≤ '9'.toNat)

def isLetter (ch : Char) : Bool :=
  decide ('a'.toNat ≤ ch.toNat) && decide (ch.toNat ≤ 'z'.toNat) || decide ('A'.toNat ≤ ch.toNat) && decide (ch.toNat ≤ 'Z'.toNat)

/-- The pieces of a text between occurrences of a character. -/
def splitAtChar (sep : Char) : List Char → List (List Char)
  | [] => [[]]
  | ch :: rest =>
    match splitAtChar sep rest with
    | [] => [[ch]]
    | piece :: pieces => if ch == sep then [] :: piece :: pieces else (ch :: piece) :: pieces

/-- The value of a hexadecimal digit. DESIGN CHOICE (log 23): a to f are digits in lower case too; the source shows upper case
only and does not say. -/
def hexDigit (ch : Char) : Option Nat :=
  if isDigit ch then some (ch.toNat - '0'.toNat)
  else if decide ('a'.toNat ≤ ch.toNat) && decide (ch.toNat ≤ 'f'.toNat) then some (ch.toNat - 'a'.toNat + 10)
  else if decide ('A'.toNat ≤ ch.toNat) && decide (ch.toNat ≤ 'F'.toNat) then some (ch.toNat - 'A'.toNat + 10)
  else none

/-- The number of a digit sequence, most significant first, after the value read so far. -/
def hexValue : List Char → Nat → Option Nat
  | [], acc => some acc
  | ch :: rest, acc => (hexDigit ch).bind fun d => hexValue rest (acc * 16 + d)

/-! ### Operands and statements -/

/-- A label name: letters and digits (R90), not beginning with a digit (N14). -/
def isLabelName : List Char → Bool
  | [] => false
  | ch :: rest => isLetter ch && rest.all fun x => isLetter x || isDigit x

/-- A register by its name, `$` first (R92). -/
def lookupReg (name : List Char) : Option Reg := (regTable.find? fun r => r.name.toList == name).map RegInfo.num

/-- A mnemonic by its spelling. -/
def lookupMnemonic (name : List Char) : Option Mnemonic := (mnemonicTable.find? fun p => p.1.toList == name).map Prod.snd

/-- One operand: a register, a hexadecimal number that starts with `0x`, or `%name` (R91 to R93). -/
def parseOperand : List Char → Except AsmError Operand
  | '0' :: 'x' :: d :: ds =>
    match hexValue (d :: ds) 0 with
    | some n => .ok (.imm n)
    | none => .error .badOperand
  | '%' :: name => if isLabelName name then .ok (.label name) else .error .badOperand
  | text =>
    match lookupReg text with
    | some r => .ok (.reg r)
    | none => .error .badOperand

def parseOperands : List (List Char) → Except AsmError (List Operand)
  | [] => .ok []
  | t :: ts =>
    match parseOperand (trimLeft t), parseOperands ts with
    | .ok o, .ok os => .ok (o :: os)
    | .error e, _ => .error e
    | _, .error e => .error e

/-- The immediate an operand writes. -/
def Operand.imm16 : Operand → Option Imm16
  | .imm n => some (.lit (BitVec.ofNat 16 n))
  | .label name => some (.label name)
  | .reg _ => none

/-- The instruction a three-register mnemonic names. -/
def threeReg (op : Opcode) (rs rt rd : Reg) : Option Instr :=
  match op with
  | .add => some (.add rs rt rd)
  | .and => some (.and rs rt rd)
  | .beq => some (.beq rs rt rd)
  | .bsr => some (.bsr rs rt rd)
  | .nor => some (.nor rs rt rd)
  | .or => some (.or rs rt rd)
  | .sll => some (.sll rs rt rd)
  | .slt => some (.slt rs rt rd)
  | .xor => some (.xor rs rt rd)
  | .srl => some (.srl rs rt rd)
  | .jr | .jrl | .lui | .lw | .ori | .sw => none

/-- The instruction or pseudo-instruction of a statement, operands in the order they are written (R94, R160 to R173). -/
def Stmt.code? (t : Stmt) : Option Code :=
  match t.mnemonic, t.operands with
  | .hw .jr, [.reg rd] => some (.hw (.jr rd))
  | .hw .jrl, [.reg rd] => some (.hw (.jrl rd))
  | .hw .lui, [.reg rs, .imm n] => some (.hw (.lui rs (BitVec.ofNat 8 n)))
  | .hw .ori, [.reg rs, .imm n] => some (.hw (.ori rs (BitVec.ofNat 8 n)))
  | .hw .lw, [.reg rs, .reg rt] => some (.hw (.lw rs rt))
  | .hw .sw, [.reg rs, .reg rt] => some (.hw (.sw rs rt))
  | .hw op, [.reg rs, .reg rt, .reg rd] => (threeReg op rs rt rd).map .hw
  | .ps .li, [.reg rs, a] => a.imm16.map fun v => .ps (.li rs v)
  | .ps .addi, [.reg rs, a, .reg rd] => a.imm16.map fun v => .ps (.addi rs v rd)
  | .ps .andi, [.reg rs, a, .reg rd] => a.imm16.map fun v => .ps (.andi rs v rd)
  | .ps .sub, [.reg rs, .reg rt, .reg rd] => some (.ps (.sub rs rt rd))
  | .ps .lwo, [.reg rs, .reg rt, a] => a.imm16.map fun v => .ps (.lwo rs rt v)
  | .ps .swo, [.reg rs, .reg rt, a] => a.imm16.map fun v => .ps (.swo rs rt v)
  | .ps .push, [.reg rs] => some (.ps (.push rs))
  | .ps .pop, [.reg rs] => some (.ps (.pop rs))
  | .ps .call, [.label f] => some (.ps (.call (.label f)))
  | .ps .jmp, [.label l] => some (.ps (.jmp (.label l)))
  | .ps .jeq, [.reg rs, .reg rt, .label l] => some (.ps (.jeq rs rt (.label l)))
  | .ps .slli, [.imm n, .reg rt, .reg rd] => some (.ps (.slli (BitVec.ofNat 4 n) rt rd))
  | .ps .srli, [.imm n, .reg rt, .reg rd] => some (.ps (.srli (BitVec.ofNat 4 n) rt rd))
  | .ps .bsri, [.imm n, .reg rt, .reg rd] => some (.ps (.bsri (BitVec.ofNat 4 n) rt rd))
  | _, _ => none

/-- A statement checked: ill-formed ones are refused (R93, R94, R163). -/
def Stmt.check (t : Stmt) : Except AsmError Code :=
  match t.wf, t.code? with
  | true, some c => .ok c
  | _, _ => .error .illFormedStatement

/-! ### Lines (R89, R90, R97) -/

/-- The part of a line after its label definition, if any: one instruction, pseudo-instruction or directive. `raw` is the
line with its comment. The data of `.asciiz` is all that follows the white space after it, up to the newline (R97): a carriage
return before the newline is kept as data, and a directive that nothing follows has empty text (DESIGN CHOICE, log 23). -/
def parseItem (raw : List Char) (label : Option LabelName) (text : List Char) : Except AsmError SrcLine :=
  let word := text.takeWhile fun ch => !isSpace ch
  let rest := text.dropWhile fun ch => !isSpace ch
  if word == ".asciiz".toList then
    if label.isNone then .error .asciizWithoutLabel
    else if raw.contains '#' then .error .hashInAsciiz
    else .ok ⟨label, .data (trimLeft rest)⟩
  else
    match lookupMnemonic word with
    | none => .error .unknownMnemonic
    | some m =>
      match parseOperands (splitAtChar ',' (trimRight rest)) with
      | .error e => .error e
      | .ok os => (Stmt.check ⟨m, os⟩).map fun c => ⟨label, .code c⟩

/-- One line: a `#` starts a comment, blank lines emit nothing, and a label definition comes first, its name immediately
followed by `:` and then by white space. -/
def parseLine (raw : List Char) : Except AsmError (Option SrcLine) :=
  let body := trimLeft (raw.takeWhile fun ch => ch != '#')
  let first := body.takeWhile fun ch => !isSpace ch
  if body.isEmpty then .ok none
  else if first.getLast? == some ':' then
    let name := first.dropLast
    let text := trimLeft (body.drop first.length)
    if !isLabelName name then .error .badLabelName
    else if text.isEmpty then .error .labelWithoutStatement
    else (parseItem raw (some name) text).map some
  else (parseItem raw none body).map some

/-- The lines of a source text, in order. -/
def parseLines : List (List Char) → Except AsmError (List SrcLine)
  | [] => .ok []
  | raw :: rest =>
    match parseLine raw, parseLines rest with
    | .ok none, .ok ls => .ok ls
    | .ok (some l), .ok ls => .ok (l :: ls)
    | .error e, _ => .error e
    | _, .error e => .error e

/-! ### Addresses and words (R95, R96) -/

/-- The words of `.asciiz`: the text, a newline and a NUL, in the layout that was supplied (R97). -/
def asciizWords (c : Config) (text : List Char) : Except AsmError (List Word) :=
  match c.asciizPacking with
  | none => .error .asciizPackingOpen
  | some pack => .ok (pack (text ++ [Char.ofNat 0x0A, Char.ofNat 0x00]))

/-- How many words an item emits; it depends on no label (R95, R96). -/
def Item.size (c : Config) : Item → Except AsmError Nat
  | .code (.hw _) => .ok 1
  | .code (.ps p) => .ok p.size
  | .data text => (asciizWords c text).map List.length

/-- Label names and their values, the latest first. -/
abbrev LabelTable := List (LabelName × Word)

/-- The labels of the lines when the location counter stands at `loc`: a label's value is the counter at the start of its
line, and each word adds 2 (R96). -/
def collectLabels (c : Config) : List SrcLine → Nat → LabelTable → Except AsmError LabelTable
  | [], _, t => .ok t
  | l :: ls, loc, t =>
    match l.item.size c with
    | .error e => .error e
    | .ok n =>
      if loc + 2 * n > 0x10000 then .error .pastEndOfMemory
      else match l.label with
        | none => collectLabels c ls (loc + 2 * n) t
        | some name =>
          if (t.lookup name).isSome then .error .duplicateLabel
          else collectLabels c ls (loc + 2 * n) ((name, BitVec.ofNat 16 loc) :: t)

/-- The value of an immediate. -/
def Imm16.value (t : LabelTable) : Imm16 → Option Word
  | .lit v => some v
  | .label name => t.lookup name

/-- The words of an item, labels resolved. -/
def Item.words (c : Config) (t : LabelTable) : Item → Except AsmError (List Word)
  | .code (.hw i) => .ok [encode i]
  | .code (.ps p) =>
    match p.resolve (Imm16.value t) with
    | some q => .ok (q.expand.map encode)
    | none => .error .undefinedLabel
  | .data text => asciizWords c text

/-- The words of all lines, in order. -/
def emitWords (c : Config) (t : LabelTable) : List SrcLine → Except AsmError (List Word)
  | [] => .ok []
  | l :: ls =>
    match l.item.words c t, emitWords c t ls with
    | .ok ws, .ok rest => .ok (ws ++ rest)
    | .error e, _ => .error e
    | _, .error e => .error e

/-- The (address, word) pairs of a source text, from `LOAD_BASE` on (R96), or why it is refused. -/
def assemble (c : Config) (source : List Char) : Except AsmError (List (Word × Word)) :=
  if !isEven c.loadBase then .error .oddLoadBase
  else match parseLines (splitAtChar '\n' source) with
    | .error e => .error e
    | .ok ls =>
      match collectLabels c ls c.loadBase.toNat [] with
      | .error e => .error e
      | .ok t => (emitWords c t ls).map (Machine.place c.loadBase.toNat)

end Sys2Proof
end

