-- ==== Sys2Proof/Machine/Fsm.lean ====
section
/-! DEFINITION. The CPU as the control signals and the finite-state machine describe it (70_reset_and_hazards.md R230 to
R232): one clock cycle at a time, the datapath doing what the signals say. It is the source's second description of every
instruction (95_test_vectors.md A6), independent of `exec`, and it gives the cycle counts. No program can observe any of
its extra state (10_state.md R31). The spec's fault device (R190) is placed in the phases that R197 names. -/

namespace Sys2Proof.Machine

/-! ### Control signals (R230) -/

inductive MemAddrSrc where
  | pc | regfile
  deriving DecidableEq, Repr

inductive RegFileWriteSrc where
  | alu | mem | ir | nextPC
  deriving DecidableEq, Repr

inductive WriteReg where
  | rs | rt | rd | ra | no
  deriving DecidableEq, Repr

inductive AluIn1Src where
  | regfile | ir
  deriving DecidableEq, Repr

/-- The control signals of R230, one field a row. They hold their values until set again. -/
structure Signals where
  writePC : Bool
  memAddrSrc : MemAddrSrc
  writeMem : Bool
  writeIR : Bool
  regFileWriteSrc : RegFileWriteSrc
  writeReg : WriteReg
  doBranch : Bool
  aluIn1Src : AluIn1Src
  aluOpcode : Opcode
  memRequest : Bool
  memDone : Bool
  initSig : Bool
  deriving DecidableEq, Repr

/-- The states of the FSM (R231). -/
inductive FsmState where
  | initial | fetch | decode | executeAndMemoryAccess | writeBack
  deriving DecidableEq, Repr

/-- The memory unit's states (R231); in which cycle each is entered is approximate in the source (N29; log 26). -/
inductive MemUnit where
  | memReady4Next | memReady4Ctrl | memReady4Data
  deriving DecidableEq, Repr

/-- The table's clock cycles 1 to 11 (R231). -/
inductive Cycle where
  | c1 | c2 | c3 | c4 | c5 | c6 | c7 | c8 | c9 | c10 | c11
  deriving DecidableEq, Repr

/-- The FSM state a cycle belongs to (R231). -/
def Cycle.fsm : Cycle → FsmState
  | .c1 => .initial
  | .c2 | .c3 | .c4 | .c5 => .fetch
  | .c6 => .decode
  | .c7 | .c8 | .c9 | .c10 => .executeAndMemoryAccess
  | .c11 => .writeBack

/-- The CPU at the start of a clock cycle: the architectural state and the state no program can see (R31). -/
structure Cpu where
  arch : State
  cycle : Cycle
  ir : Word
  signals : Signals
  memUnit : MemUnit
  memOut : Word
  deriving DecidableEq, Repr

/-! ### What each phase sets the signals to (R231) -/

/-- Cycle 1. No other signal is spoken of at Initial; they keep their values (DESIGN CHOICE, log 24). -/
def Signals.atInitial (g : Signals) : Signals := { g with initSig := true }

/-- Cycle 2. The table sets neither `init_sig` nor `memDone` back to 0; DESIGN CHOICE (log 24): both are 0 from here on, once
memory is ready, `memDone` until the fetch is done. -/
def Signals.atFetch (g : Signals) : Signals :=
  { g with initSig := false, writePC := false, doBranch := false, writeReg := .no, memAddrSrc := .pc, writeMem := false,
           memRequest := true, memDone := false }

def Signals.atDecode (g : Signals) : Signals := { g with memRequest := false, writeIR := true }

/-- Cycle 7. The table does not say where `aluOpcode` is set; it is the opcode of the instruction register (R230; DEDUCED, log
16). It does not set `memDone` back to 0 either; DESIGN CHOICE (log 24): it is 0 from here until a data access is done. -/
def Signals.atExecute (g : Signals) (op : Opcode) : Signals :=
  let g := { g with aluOpcode := op, memDone := false }
  match op with
  | .add | .and | .or | .nor | .slt | .sll | .srl | .xor | .bsr => { g with aluIn1Src := .regfile }
  | .ori | .lui => { g with aluIn1Src := .ir }
  | .beq | .jr | .jrl => { g with aluIn1Src := .regfile, doBranch := true }
  | .lw => { g with memAddrSrc := .regfile, writeMem := false, memRequest := true }
  | .sw => { g with memAddrSrc := .regfile, writeMem := true, memRequest := true }

/-- Cycle 11. `beq`, `jr` and `sw` have no entry: `writeReg` keeps the value `no` of Fetch (R231, R24). -/
def Signals.atWriteBack (g : Signals) (op : Opcode) : Signals :=
  let g := { g with writePC := true, memRequest := false }
  match op with
  | .add | .and | .or | .nor | .sll | .srl | .xor | .bsr | .slt => { g with regFileWriteSrc := .alu, writeReg := .rd }
  | .ori | .lui => { g with regFileWriteSrc := .alu, writeReg := .rs }
  | .jrl => { g with regFileWriteSrc := .nextPC, writeReg := .ra }
  | .lw => { g with regFileWriteSrc := .mem, writeReg := .rs }
  | .beq | .jr | .sw => g

/-! ### The datapath -/

/-- The ALU's first input (`aluIn1Src`, R230): a register, or the immediate of the instruction register (R132). -/
def Cpu.aluIn1 (u : Cpu) : Word :=
  match u.signals.aluIn1Src with
  | .regfile => u.arch.getReg (rsField u.ir)
  | .ir => zeroExtended (immField u.ir)

/-- The ALU's second input: `x[rs]` when the first is the immediate, else `x[rt]`. DEDUCED from R131 and R116, for the
table has no signal for it (log 16). -/
def Cpu.aluIn2 (u : Cpu) : Word :=
  match u.signals.aluIn1Src with
  | .regfile => u.arch.getReg (rtField u.ir)
  | .ir => u.arch.getReg (rsField u.ir)

/-- The ALU's result, from the instruction rules (R110 to R115, R130, R131, R150 to R152); `lw` and `sw` do not involve it
(R84), and of `beq`, `jr` and `jrl` only the condition is used. -/
def alu (c : Config) (op : Opcode) (a b : Word) : Word :=
  match op with
  | .add => a + b
  | .and => a &&& b
  | .nor => ~~~(a ||| b)
  | .or => a ||| b
  | .xor => a ^^^ b
  | .slt => sltResult c a b
  | .bsr => ror16 b (shiftAmount a)
  | .sll => b <<< shiftAmount a
  | .srl => b >>> shiftAmount a
  | .lui => a <<< 8
  | .ori => a ||| b
  | .beq | .jr | .jrl | .lw | .sw => 0

/-- Whether the ALU lets a branch be taken: equality for `beq` (R121), always for `jr` and `jrl` (R122, R123). -/
def aluBranches (op : Opcode) (a b : Word) : Bool :=
  match op with
  | .beq => wordsEqual a b
  | .jr | .jrl => true
  | .add | .and | .nor | .or | .xor | .slt | .bsr | .sll | .srl | .lui | .ori | .lw | .sw => false

/-- The value and the register that the write-back signals select (R230), or no register. -/
def Cpu.writeBack (c : Config) (u : Cpu) : Option (Reg × Word) :=
  let v := match u.signals.regFileWriteSrc with
    | .alu => alu c u.signals.aluOpcode u.aluIn1 u.aluIn2
    | .mem => u.memOut
    | .ir => u.ir
    | .nextPC => linkValue c u.arch
  match u.signals.writeReg with
  | .rs => some (rsField u.ir, v)
  | .rt => some (rtField u.ir, v)
  | .rd => some (rdField u.ir, v)
  | .ra => some (Reg.ra, v)
  | .no => none

/-- Whether `doBranch` and the ALU have the pc take the target rather than the next instruction (R231). -/
def Cpu.takesBranch (u : Cpu) : Bool := u.signals.doBranch && aluBranches u.signals.aluOpcode u.aluIn1 u.aluIn2

/-- "Register file and PC become valid": both latch what the signals select, all at once (R11, R231). The target is the
address that `MISALIGNED_TARGET` makes of `x[rd]` (R120), and it is taken as `DELAY_SLOT` says (R124). -/
def Cpu.latch (c : Config) (u : Cpu) : Result State :=
  runDecoded c (fun s =>
    let t := match u.writeBack c with
      | some (r, v) => s.setReg r v
      | none => s
    if !u.signals.writePC then .next t
    else if u.takesBranch then andThen (targetAddress c s (s.getReg (rdField u.ir))) fun a => .next (t.transfer c a)
    else .next t.advance) u.arch

/-- The address `memAddrSrc` selects (R230, R142). -/
def Cpu.memAddr (u : Cpu) : Word :=
  match u.signals.memAddrSrc with
  | .pc => u.arch.pc
  | .regfile => u.arch.getReg (rtField u.ir)

/-- The memory unit completes the access that was requested (`writeMem` says which, R230). -/
def Cpu.access (c : Config) (u : Cpu) : Result Cpu :=
  let done := { u.signals with memDone := true }
  if u.signals.writeMem then
    andThen (memWrite c u.arch u.memAddr (u.arch.getReg (rsField u.ir))) fun s => .next { u with arch := s, signals := done }
  else
    andThen (memRead c u.arch u.memAddr) fun v => .next { u with memOut := v, signals := done }

/-- Whether the memory period of cycles 8 to 10 exists (R231: "sw and lw"). -/
def usesMemory : Opcode → Bool
  | .lw | .sw => true
  | .add | .and | .beq | .jr | .jrl | .lui | .bsr | .nor | .or | .ori | .sll | .slt | .xor | .srl => false

/-- The alignment check on a transfer's target, in Execute (R120, R197 (4)). -/
def Cpu.checkTarget (c : Config) (u : Cpu) : Result Word :=
  if u.signals.doBranch then targetAddress c u.arch (u.arch.getReg (rdField u.ir)) else .next 0

/-- One clock cycle (R231). DESIGN CHOICE (log 24): cycle 1 gives the architectural registers their initial values (R32) and
leaves memory (log 16), the instruction register, the other signals, the memory unit and its output as they were, for the
source gives none of their initial values. The cycles in which the memory unit enters memReady4Ctrl (4, 9) and memReady4Data (5,
10) are those of the recovered table's rows, which the spec calls approximate (R231, N29): DESIGN CHOICE (log 26). `ready` is the
memory unit's answer to "If memory is ready": where the table asks it and the answer is no, the CPU waits (R66). -/
def Cpu.clock (c : Config) (ready : Bool) (u : Cpu) : Result Cpu :=
  match u.cycle with
  | .c1 => .next { u with arch := { State.ofConfig c with mem := u.arch.mem }, signals := u.signals.atInitial, cycle := .c2 }
  | .c2 =>
    if ready then .next { u with signals := u.signals.atFetch, memUnit := .memReady4Next, cycle := .c3 } else .next u
  | .c3 => .next { u with cycle := .c4 }
  | .c4 => .next { u with memUnit := .memReady4Ctrl, cycle := .c5 }
  | .c5 =>
    andThen (fetch c u.arch) fun w =>
      .next { u with memOut := w, signals := { u.signals with memDone := true }, memUnit := .memReady4Data, cycle := .c6 }
  | .c6 =>
    if ready then
      andThen (decodeFetched c u.arch u.memOut) fun _ =>
        .next { u with ir := u.memOut, signals := { u.signals.atDecode with writeIR := false }, cycle := .c7 }
    else .next u
  | .c7 =>
    let v := { u with signals := u.signals.atExecute (opcodeOf u.ir), memUnit := .memReady4Next,
                      cycle := if usesMemory (opcodeOf u.ir) then .c8 else .c11 }
    andThen (v.checkTarget c) fun _ => .next v
  | .c8 => .next { u with cycle := .c9 }
  | .c9 => .next { u with memUnit := .memReady4Ctrl, cycle := .c10 }
  | .c10 => andThen (u.access c) fun v => .next { v with memUnit := .memReady4Data, cycle := .c11 }
  | .c11 =>
    if ready then
      let v := { u with signals := u.signals.atWriteBack (opcodeOf u.ir), memUnit := .memReady4Next, cycle := .c2 }
      andThen (v.latch c) fun s => .next { v with arch := s }
    else .next u

/-- `n` clock cycles with memory ready whenever it is asked (R232). -/
def Cpu.clocks (c : Config) : Nat → Cpu → Result Cpu
  | 0, u => .next u
  | n + 1, u => andThen (u.clock c true) (Cpu.clocks c n)

/-! ### Cycle counts (R232) -/

/-- The cycles of one instruction when memory is ready with no extra wait: a lower bound (R232). -/
def instrCycles (op : Opcode) : Nat := if usesMemory op then 10 else 7

/-- The cycles of a sequence, such as a pseudo-instruction's expansion (R232). -/
def totalCycles (is : List Instr) : Nat := (is.map fun i => instrCycles i.opcode).sum

end Sys2Proof.Machine
end

