-- ==== Sys2Proof/Machine/Launch.lean ====
section
/-! DEFINITION. Launching a program (70_reset_and_hazards.md R220 to R222): the image is in memory, then reset is released.
A reset by the user during a run ends it and is a new launch (60_exceptions.md R200, D23; log 14); it is no step. -/

namespace Sys2Proof.Machine

/-- Why a launch is refused. -/
inductive LaunchError where
  /-- an odd `RESET_PC` (R53, R221) -/
  | oddResetPc
  /-- an even `RESET_PC` outside `MEM_IMPLEMENTED`; that this is refused is a DESIGN CHOICE (log 25) -/
  | resetPcNotImplemented
  /-- a word of `MEM_INIT` at an odd address or outside `MEM_IMPLEMENTED`; that this is refused is a DESIGN CHOICE (log 25) -/
  | badImage
  deriving DecidableEq, Repr

/-- The state in which a launch with the parameters `c` begins, or why it is refused. The spec says only that a launch with an
odd `RESET_PC` is refused (R221). DESIGN CHOICE (log 25): so is one whose even `RESET_PC` is outside `MEM_IMPLEMENTED`, where R221
says "must be", and one whose image gives a word at an odd address or outside `MEM_IMPLEMENTED`. -/
def launch (c : Config) : Except LaunchError State :=
  if !isEven c.resetPc then .error .oddResetPc
  else if !c.memImplemented c.resetPc then .error .resetPcNotImplemented
  else if !imageOk c c.memInit then .error .badImage
  else .ok (State.ofConfig c)

/-! ### A byte-wise image (20_memory.md R50) -/

/-- Why a byte-wise image cannot be turned into words. -/
inductive ImageError where
  /-- no `BYTE_ORDER` is given (R6 OPEN) -/
  | byteOrderOpen
  /-- it begins at an odd address (R6 `MEM_INIT`) -/
  | oddBase
  /-- it ends in the middle of a word -/
  | oddLength
  /-- it goes on beyond address 0xFFFF (R5) -/
  | pastEndOfMemory
  deriving DecidableEq, Repr

/-- The words of a sequence of bytes, if it has an even number of them. -/
def wordsOfBytes (o : ByteOrder) : List Byte → Option (List Word)
  | [] => some []
  | [_] => none
  | p :: q :: rest => (wordsOfBytes o rest).map (wordOfBytes o p q :: ·)

/-- A byte-wise image at `base` as the words of `MEM_INIT`. This tool alone reads `BYTE_ORDER` (R50, D1; log 2). -/
def imageOfBytes (c : Config) (base : Word) (bytes : List Byte) : Except ImageError (List (Word × Word)) :=
  match c.byteOrder with
  | none => .error .byteOrderOpen
  | some o =>
    if !isEven base then .error .oddBase
    else if base.toNat + bytes.length > 0x10000 then .error .pastEndOfMemory
    else match wordsOfBytes o bytes with
      | none => .error .oddLength
      | some ws => .ok (place base.toNat ws)

/-- The modelled machine launched with a program image as `MEM_INIT`. -/
def launchImage (image : List (Word × Word)) : Except LaunchError State :=
  launch { settings with memInit := image }

end Sys2Proof.Machine
end

