-- ==== Sys2Proof/Safety.lean ====
section
/-! DEFINITION. The terms that claims about runs use: the invariant of a run, what an instruction may change, reachable
states, and the end of a run (60_exceptions.md R206). -/

namespace Sys2Proof.Machine

/-- What holds of every state a launch reaches: the pc is even (R27), memory is in its canonical form, words at
even addresses alone (R30, R57), and no delay-slot target waits (R124). -/
structure State.Inv (s : State) : Prop where
  pcEven : isEven s.pc = true
  memWf : Memory.wf s.mem
  noDelay : s.delayed = none

/-- `t` is reached from `s` by some number of steps. -/
inductive Reaches : State → State → Prop where
  | refl (s : State) : Reaches s s
  | step {s t u : State} : Reaches s t → step t = .next u → Reaches s u

/-- The word memory holds at an address: the one read that frames are stated by, for memory holds nothing but words (R50). -/
def State.wordAt (s : State) (a : Word) : Option Word := Memory.readWord s.mem a

/-- All of memory reads as before. -/
def SameMemory (s t : State) : Prop := ∀ a : Word, t.wordAt a = s.wordAt a

/-- All of memory but the word at `w` reads as before. -/
def SameMemoryExcept (w : Word) (s t : State) : Prop := ∀ a : Word, a ≠ w → t.wordAt a = s.wordAt a

/-- Every register reads as before. -/
def SameRegs (s t : State) : Prop := ∀ r : Reg, t.getReg r = s.getReg r

/-- Every register but those listed reads as before. -/
def SameRegsExcept (ds : List Reg) (s t : State) : Prop := ∀ r : Reg, r ∉ ds → t.getReg r = s.getReg r

/-- `t` is `s` with `v` written to register `d`, unless `d` is register 0, which reads as zero (R21); every other register
and all of memory is as before. The pc is not spoken of. -/
def WritesOnlyReg (d : Reg) (v : Word) (s t : State) : Prop :=
  t.getReg d = (if d = 0#4 then 0#16 else v) ∧ (∀ r : Reg, r ≠ d → t.getReg r = s.getReg r) ∧ SameMemory s t ∧
    t.delayed = s.delayed

/-- The register an instruction writes, if any (R24). -/
def destOf : Instr → Option Reg
  | .add _ _ rd | .and _ _ rd | .nor _ _ rd | .or _ _ rd | .slt _ _ rd | .xor _ _ rd => some rd
  | .sll _ _ rd | .srl _ _ rd | .bsr _ _ rd => some rd
  | .beq _ _ _ | .jr _ | .sw _ _ => none
  | .jrl _ => some Reg.ra
  | .lui rs _ | .ori rs _ | .lw rs _ => some rs

/-- The registers an instruction reads (R24), in the order of their fields (R197 (3)). -/
def sourcesOf : Instr → List Reg
  | .add rs rt _ | .and rs rt _ | .nor rs rt _ | .or rs rt _ | .slt rs rt _ | .xor rs rt _ => [rs, rt]
  | .sll rs rt _ | .srl rs rt _ | .bsr rs rt _ => [rs, rt]
  | .beq rs rt rd => [rs, rt, rd]
  | .jr rd | .jrl rd => [rd]
  | .lui _ _ => []
  | .ori rs _ => [rs]
  | .lw _ rt => [rt]
  | .sw rs rt => [rs, rt]

/-- The fault of the instruction at the pc, by R197's order of checks and its conditions alone (R191 to R194), read off the
fetched word `w` and the registers: no value at the pc; a non-zero should-be-zero field; an odd target of `beq`, `jr` or
`jrl`; an odd address of `lw` or `sw`; no value at `lw`'s address. (`UnimplementedMemory` cannot occur, R195.) -/
def expectedFault (s : State) : Option Fault :=
  match s.wordAt s.pc with
  | none => some (.uninitialisedRead s.pc s.pc)
  | some w =>
    let op := (w.toNat / 0x1000)
    let target := s.getReg (BitVec.ofNat 4 (w.toNat % 0x10))
    let addr := s.getReg (BitVec.ofNat 4 (w.toNat / 0x10 % 0x10))
    if (op = 0x3 ∨ op = 0x4) ∧ w.toNat / 0x10 % 0x100 ≠ 0 ∨ (op = 0x6 ∨ op = 0xF) ∧ w.toNat % 0x10 ≠ 0 then
      some (.reservedEncoding w s.pc)
    else if (op = 0x2 ∨ op = 0x3 ∨ op = 0x4) ∧ target.toNat % 2 = 1 then some (.misalignedTarget target s.pc)
    else if (op = 0x6 ∨ op = 0xF) ∧ addr.toNat % 2 = 1 then some (.misalignedData addr s.pc)
    else if op = 0x6 ∧ s.wordAt addr = none then some (.uninitialisedRead addr s.pc)
    else none

/-- The code of a fault, for a model that numbers them (R191 to R195). -/
def faultCode : Fault → Nat
  | .misalignedData _ _ => 1
  | .misalignedTarget _ _ => 2
  | .reservedEncoding _ _ => 3
  | .uninitialisedRead _ _ => 4
  | .unimplementedMemory _ _ => 5

/-- The end of a run (R206): about to execute, at address `a`, a `jr rd` with `x[rd] = a`, or a `beq rs,rt,rd` with
`x[rs] = x[rt]` and `x[rd] = a`. -/
def atEnd (s : State) : Bool :=
  match fetchInstr settings s with
  | .next (.jr rd) => decide (s.getReg rd = s.pc)
  | .next (.beq rs rt rd) => wordsEqual (s.getReg rs) (s.getReg rt) && decide (s.getReg rd = s.pc)
  | _ => false

end Sys2Proof.Machine
end

