-- ==== Sys2Proof/Certificates/Slice0/Obligations.lean ====
section
/-! DEFINITION. The statements for the provers. Each docstring names the rule of the spec it formalises; a clause that rests
on a choice of the spec or of the model names the decision (92_eei_decisions.md) and the log entry (notes/assumptions/). -/

open Sys2Proof Sys2Proof.Machine

/-! ## Encoding -/

/-- R84, with the words of 95_test_vectors.md Part B: one word of each opcode, written out from its encoding. -/
def Obligations.DecodesKnownWords : Prop :=
  decode settings 0b0000000100100011#16 = .ok (.add .s0 .s1 .s2) ∧
  decode settings 0b0001111111111111#16 = .ok (.and .ra .ra .ra) ∧
  decode settings 0b0010000100101011#16 = .ok (.beq .s0 .s1 .la) ∧
  decode settings 0b0011000000001111#16 = .ok (.jr .ra) ∧
  decode settings 0b0100000000001011#16 = .ok (.jrl .la) ∧
  decode settings 0b0101010100010010#16 = .ok (.lui .t0 0x12#8) ∧
  decode settings 0b0110000100100000#16 = .ok (.lw .s0 .s1) ∧
  decode settings 0b0111000100100011#16 = .ok (.bsr .s0 .s1 .s2) ∧
  decode settings 0b1000000100000001#16 = .ok (.nor .s0 .zero .s0) ∧
  decode settings 0b1001010101100111#16 = .ok (.or .t0 .t1 .t2) ∧
  decode settings 0b1010010100110100#16 = .ok (.ori .t0 0x34#8) ∧
  decode settings 0b1011111000010010#16 = .ok (.sll .at .s0 .s1) ∧
  decode settings 0b1100000100100011#16 = .ok (.slt .s0 .s1 .s2) ∧
  decode settings 0b1101010101100111#16 = .ok (.xor .t0 .t1 .t2) ∧
  decode settings 0b1110000100100011#16 = .ok (.srl .s0 .s1 .s2) ∧
  decode settings 0b1111111111000000#16 = .ok (.sw .ra .sp)

/-- R80, R81, R86: no bit of an instruction is dropped, under every setting of the parameters. -/
def Obligations.DecodeOfEncode : Prop := ∀ (c : Config) (i : Instr), decode c (encode i) = .ok i

/-- R83: a word that decodes is the encoding of what it decodes to, so no two words are one instruction. It rests on the
setting `SBZ_NONZERO = fault` (D4; log 7). -/
def Obligations.EncodeOfDecode : Prop := ∀ (w : Word) (i : Instr), decode settings w = .ok i → encode i = w

/-- spec/opcode_table.json: a word decodes to an instruction with a given opcode exactly when it matches that opcode's row. -/
def Obligations.DecodeMatchesOpcodeTable : Prop :=
  ∀ (w : Word) (op : Opcode),
    (∃ i, decode settings w = .ok i ∧ i.opcode = op) ↔
      ∃ row ∈ opcodeTable, row.op = op ∧ w &&& row.mask = row.matchBits

/-- R87: the reserved encodings are exactly the words of opcode 3 or 4 with bits 11:4 not zero and of opcode 6 or F with
bits 3:0 not zero; every other word is an instruction (R88). That a reserved word is refused is D4 (log 7). -/
def Obligations.ReservedEncodingsExactly : Prop :=
  ∀ w : Word,
    (decode settings w = .error (.reservedEncoding w) ↔
      ((w.toNat / 0x1000 = 3 ∨ w.toNat / 0x1000 = 4) ∧ w.toNat / 0x10 % 0x100 ≠ 0) ∨
        ((w.toNat / 0x1000 = 6 ∨ w.toNat / 0x1000 = 15) ∧ w.toNat % 0x10 ≠ 0)) ∧
    (decode settings w ≠ .error (.reservedEncoding w) → ∃ i, decode settings w = .ok i)

/-- R87's other setting, `SBZ_NONZERO = ignore` (not the modelled machine's; D4, log 7): no word is reserved, and a
should-be-zero field has no effect. -/
def Obligations.IgnoredSbzFieldsHaveNoEffect : Prop :=
  ∀ c : Config, c.sbzNonzero = .ignore →
    (∀ w : Word, ∃ i, decode c w = .ok i ∧ i.opcode = opcodeOf w) ∧
    ∀ rs rt rd : Reg,
      decode c (0x3#4 ++ rs ++ rt ++ rd) = .ok (.jr rd) ∧
      decode c (0x4#4 ++ rs ++ rt ++ rd) = .ok (.jrl rd) ∧
      decode c (0x6#4 ++ rs ++ rt ++ rd) = .ok (.lw rs rt) ∧
      decode c (0xF#4 ++ rs ++ rt ++ rd) = .ok (.sw rs rt)

/-- R82: every instruction is exactly two bytes, which decode to it and leave the bytes after them; and whatever decodes took
exactly two bytes, before any of them was looked at. It holds in either byte order (which one is open, D1) and under every
setting of the parameters. -/
def Obligations.InstructionIsTwoBytes : Prop :=
  ∀ (o : ByteOrder) (c : Config),
    (∀ (i : Instr) (rest : List Byte),
      (encodeBytes o i).length = 2 ∧ decodeBytes o c (encodeBytes o i ++ rest) = .ok (i, rest)) ∧
    ∀ (bytes rest : List Byte) (i : Instr), decodeBytes o c bytes = .ok (i, rest) →
      rest = bytes.drop 2 ∧ rest.length + 2 = bytes.length

/-! ## Each instruction: its encoding, that it completes, its result and its frame

The result statements say of the next state `t` its registers and its memory, whole. The pc of the plain ones is
`PcAdvancesUnlessTransfer`'s, for the increment of 2 and its wrap at 0xFFFE are R26's inference and D13 (log 10). That a
write to register 0 leaves it zero is R21's "Constant value zero". -/

/-- R110. -/
def Obligations.AddResult : Prop :=
  ∀ (rs rt rd : Reg) (s : State), decode settings (0x0#4 ++ rs ++ rt ++ rd) = .ok (.add rs rt rd) ∧
    ∃ t, exec (.add rs rt rd) s = .next t ∧
      WritesOnlyReg rd (BitVec.ofNat 16 (((s.getReg rs).toNat + (s.getReg rt).toNat) % 2 ^ 16)) s t

/-- R111. -/
def Obligations.AndResult : Prop :=
  ∀ (rs rt rd : Reg) (s : State), decode settings (0x1#4 ++ rs ++ rt ++ rd) = .ok (.and rs rt rd) ∧
    ∃ t, exec (.and rs rt rd) s = .next t ∧ WritesOnlyReg rd (s.getReg rs &&& s.getReg rt) s t

/-- R112. -/
def Obligations.NorResult : Prop :=
  ∀ (rs rt rd : Reg) (s : State), decode settings (0x8#4 ++ rs ++ rt ++ rd) = .ok (.nor rs rt rd) ∧
    ∃ t, exec (.nor rs rt rd) s = .next t ∧ WritesOnlyReg rd (~~~(s.getReg rs ||| s.getReg rt)) s t

/-- R113. -/
def Obligations.OrResult : Prop :=
  ∀ (rs rt rd : Reg) (s : State), decode settings (0x9#4 ++ rs ++ rt ++ rd) = .ok (.or rs rt rd) ∧
    ∃ t, exec (.or rs rt rd) s = .next t ∧ WritesOnlyReg rd (s.getReg rs ||| s.getReg rt) s t

/-- R115. -/
def Obligations.XorResult : Prop :=
  ∀ (rs rt rd : Reg) (s : State), decode settings (0xD#4 ++ rs ++ rt ++ rd) = .ok (.xor rs rt rd) ∧
    ∃ t, exec (.xor rs rt rd) s = .next t ∧ WritesOnlyReg rd (s.getReg rs ^^^ s.getReg rt) s t

/-- 40_arith_logic.md `slt`. The result 1 is the source's; the result 0 where the comparison is false is general knowledge
(G1, D7; log 8) and the exact signed comparison is D8 (log 11). Under any other `SLT_FALSE_VALUE` (R6) that value takes the
place of the 0. -/
def Obligations.SltResult : Prop :=
  ∀ (rs rt rd : Reg) (s : State), decode settings (0xC#4 ++ rs ++ rt ++ rd) = .ok (.slt rs rt rd) ∧
    (∃ t, exec (.slt rs rt rd) s = .next t ∧
      WritesOnlyReg rd (if (s.getReg rs).toInt < (s.getReg rt).toInt then 1#16 else 0#16) s t ∧ t.pc = s.pc + 2#16) ∧
    ∀ c : Config, ∃ t, execWith c (.slt rs rt rd) s = .next t ∧
      WritesOnlyReg rd (if (s.getReg rs).toInt < (s.getReg rt).toInt then 1#16 else c.sltFalseValue) s t ∧
      t.pc = s.pc + 2#16

/-- R130: the value is `imm * 256`. -/
def Obligations.LuiResult : Prop :=
  ∀ (rs : Reg) (imm : Byte) (s : State), decode settings (0x5#4 ++ rs ++ imm) = .ok (.lui rs imm) ∧
    ∃ t, exec (.lui rs imm) s = .next t ∧ WritesOnlyReg rs (BitVec.ofNat 16 (imm.toNat * 256)) s t

/-- R131: the immediate is zero-extended. -/
def Obligations.OriResult : Prop :=
  ∀ (rs : Reg) (imm : Byte) (s : State), decode settings (0xA#4 ++ rs ++ imm) = .ok (.ori rs imm) ∧
    ∃ t, exec (.ori rs imm) s = .next t ∧ WritesOnlyReg rs (s.getReg rs ||| BitVec.ofNat 16 imm.toNat) s t

/-- R151: `(x[rt] * 2^shamt) mod 2^16` with `shamt` the low 4 bits of `x[rs]`. -/
def Obligations.SllResult : Prop :=
  ∀ (rs rt rd : Reg) (s : State), decode settings (0xB#4 ++ rs ++ rt ++ rd) = .ok (.sll rs rt rd) ∧
    ∃ t, exec (.sll rs rt rd) s = .next t ∧
      WritesOnlyReg rd (BitVec.ofNat 16 ((s.getReg rt).toNat * 2 ^ ((s.getReg rs).toNat % 16) % 2 ^ 16)) s t

/-- R152: `floor(unsigned(x[rt]) / 2^shamt)`. -/
def Obligations.SrlResult : Prop :=
  ∀ (rs rt rd : Reg) (s : State), decode settings (0xE#4 ++ rs ++ rt ++ rd) = .ok (.srl rs rt rd) ∧
    ∃ t, exec (.srl rs rt rd) s = .next t ∧
      WritesOnlyReg rd (BitVec.ofNat 16 ((s.getReg rt).toNat / 2 ^ ((s.getReg rs).toNat % 16))) s t

/-- R150: bit `k` of the result is bit `(k + shamt) mod 16` of `x[rt]`. -/
def Obligations.BsrResult : Prop :=
  ∀ (rs rt rd : Reg) (s : State), decode settings (0x7#4 ++ rs ++ rt ++ rd) = .ok (.bsr rs rt rd) ∧
    ∃ t v, exec (.bsr rs rt rd) s = .next t ∧ WritesOnlyReg rd v s t ∧
      ∀ k < 16, v.getLsbD k = (s.getReg rt).getLsbD ((k + (s.getReg rs).toNat % 16) % 16)

/-- 43_load_store.md `lw`. From an even address whose word holds a value `v` it loads `v` into `rs`; the read is made for
`rs = 0` too. The faults on an odd address and on a word without a value are D2 and D11 (log 5, 12);
the pc's increment is D13 (log 10). -/
def Obligations.LwResult : Prop :=
  ∀ (rs rt : Reg) (s : State), decode settings (0x6#4 ++ rs ++ rt ++ 0x0#4) = .ok (.lw rs rt) ∧
    ((s.getReg rt).toNat % 2 = 0 → ∀ v, s.wordAt (s.getReg rt) = some v →
      ∃ t, exec (.lw rs rt) s = .next t ∧ WritesOnlyReg rs v s t ∧ t.pc = s.pc + 2#16) ∧
    ((s.getReg rt).toNat % 2 = 0 → s.wordAt (s.getReg rt) = none →
      exec (.lw rs rt) s = .fault (.uninitialisedRead (s.getReg rt) s.pc)) ∧
    ((s.getReg rt).toNat % 2 = 1 → exec (.lw rs rt) s = .fault (.misalignedData (s.getReg rt) s.pc))

/-- 43_load_store.md `sw`. It stores `x[rs]` in the word at the address the meaning computes, which is `x[rt]`; no register
and no other word of memory changes. The fault on an odd address is D2 (log 5); that the store to every even address lands is
`MEM_IMPLEMENTED` = all words (R6, D11; log 12); the pc's increment is D13 (log 10). -/
def Obligations.SwResult : Prop :=
  ∀ (rs rt : Reg) (s : State), decode settings (0xF#4 ++ rs ++ rt ++ 0x0#4) = .ok (.sw rs rt) ∧
    (∀ a, dataAddress settings s (effectiveAddress s rt) = .next a →
      a = s.getReg rt ∧
      ∃ t, exec (.sw rs rt) s = .next t ∧ t.wordAt a = some (s.getReg rs) ∧ SameMemoryExcept a s t ∧ SameRegs s t ∧
        t.pc = s.pc + 2#16 ∧ t.delayed = s.delayed) ∧
    ((s.getReg rt).toNat % 2 = 0 → ∃ a, dataAddress settings s (effectiveAddress s rt) = .next a) ∧
    ((s.getReg rt).toNat % 2 = 1 → exec (.sw rs rt) s = .fault (.misalignedData (s.getReg rt) s.pc))

/-- 41_control_transfer.md `beq`. With an even `x[rd]` it completes: the next pc is `x[rd]` if all 16 bits are equal, else
`pc + 2`, and nothing else changes. The fault on an odd `x[rd]`, taken or not, is D3 and D22 (log 6); that there is no delay
slot is C8 and D5 (log 4). -/
def Obligations.BeqResult : Prop :=
  ∀ (rs rt rd : Reg) (s : State), decode settings (0x2#4 ++ rs ++ rt ++ rd) = .ok (.beq rs rt rd) ∧
    ((s.getReg rd).toNat % 2 = 0 →
      ∃ t, exec (.beq rs rt rd) s = .next t ∧ SameRegs s t ∧ SameMemory s t ∧ t.delayed = s.delayed ∧
        t.pc = if s.getReg rs = s.getReg rt then s.getReg rd else s.pc + 2#16) ∧
    ((s.getReg rd).toNat % 2 = 1 → exec (.beq rs rt rd) s = .fault (.misalignedTarget (s.getReg rd) s.pc))

/-- 41_control_transfer.md `jr`. With an even `x[rd]` it completes with that pc and nothing else changed. The fault on an
odd one is D3 (log 6); that there is no delay slot is C8 and D5 (log 4). -/
def Obligations.JrResult : Prop :=
  ∀ (rd : Reg) (s : State), decode settings (0x3#4 ++ 0x0#4 ++ 0x0#4 ++ rd) = .ok (.jr rd) ∧
    ((s.getReg rd).toNat % 2 = 0 →
      ∃ t, exec (.jr rd) s = .next t ∧ SameRegs s t ∧ SameMemory s t ∧ t.delayed = s.delayed ∧ t.pc = s.getReg rd) ∧
    ((s.getReg rd).toNat % 2 = 1 → exec (.jr rd) s = .fault (.misalignedTarget (s.getReg rd) s.pc))

/-- 41_control_transfer.md `jrl`. With an even `x[rd]` it completes: the pc is the old `x[rd]`, `$ra` holds `pc + 2`, nothing
else changes. The link `pc + 2` and no delay slot are C8 and D5 (log 4); the fault on an odd target is D3 (log 6). -/
def Obligations.JrlResult : Prop :=
  ∀ (rd : Reg) (s : State), decode settings (0x4#4 ++ 0x0#4 ++ 0x0#4 ++ rd) = .ok (.jrl rd) ∧
    ((s.getReg rd).toNat % 2 = 0 →
      ∃ t, exec (.jrl rd) s = .next t ∧ WritesOnlyReg .ra (s.pc + 2#16) s t ∧ t.pc = s.getReg rd) ∧
    ((s.getReg rd).toNat % 2 = 1 → exec (.jrl rd) s = .fault (.misalignedTarget (s.getReg rd) s.pc))

/-- R120, R124, R6: the transfers under every setting. An odd `x[rd]` faults where `MISALIGNED_TARGET` says fault; else the
target is `x[rd]`, bit 0 cleared where it is odd. A taken transfer goes there at once, or under `DELAY_SLOT = true` the target
waits in `delayed` while the pc goes to the next instruction, and the step that runs that one ends at the target; any other step
is its instruction and nothing more. `jrl` links to `pc + LINK_OFFSET`. Only the settings D3 and D5 choose are the modelled machine's (log 4, 6);
that the next instruction is at `pc + 2` modulo 2^16 is R26's inference and D13 (log 10), and the field `delayed`, in which the
target waits, is the model's own (log 4). What a slot's instruction leaves in that field is kept (log 22). -/
def Obligations.TransfersUnderEverySetting : Prop :=
  ∀ (c : Config) (rs rt rd : Reg) (s : State),
    let a := s.getReg rd
    let target : Word := BitVec.ofNat 16 (a.toNat - a.toNat % 2)
    let taken (t : State) : State :=
      if c.delaySlot = true then { t with pc := s.pc + 2#16, delayed := some target } else { t with pc := target }
    let link : Word := s.pc + (if c.linkOffset = .two then 2#16 else 4#16)
    let f := Fault.misalignedTarget a s.pc
    (a.toNat % 2 = 1 → c.misalignedTarget = .fault →
      execWith c (.jr rd) s = .fault f ∧ execWith c (.jrl rd) s = .fault f ∧ execWith c (.beq rs rt rd) s = .fault f) ∧
    (a.toNat % 2 = 0 ∨ c.misalignedTarget = .ignoreBit0 →
      execWith c (.jr rd) s = .next (taken s) ∧ execWith c (.jrl rd) s = .next (taken (s.setReg .ra link)) ∧
      execWith c (.beq rs rt rd) s =
        .next (if s.getReg rs = s.getReg rt then taken s else { s with pc := s.pc + 2#16 })) ∧
    ∀ i, fetchInstr c s = .next i →
      (∀ d, c.delaySlot = true → s.delayed = some d →
        (∀ t, execWith c i { s with delayed := none } = .next t → stepWith c s = .next { t with pc := d }) ∧
        ∀ e, execWith c i { s with delayed := none } = .fault e → stepWith c s = .fault e) ∧
      (c.delaySlot = false ∨ s.delayed = none → stepWith c s = execWith c i s)

/-! ## Rules of the whole machine -/

/-- R24, the registers written: an instruction changes no register but its destination; `beq`, `jr` and `sw` change none. -/
def Obligations.OnlyDestinationRegisterChanges : Prop :=
  ∀ (i : Instr) (s t : State), exec i s = .next t → ∀ r : Reg, destOf i ≠ some r → t.getReg r = s.getReg r

/-- R24, the registers read: two states that agree on the registers an instruction reads, on the pc and on memory give the
same destination value, pc and memory, and fault alike. -/
def Obligations.OnlySourceRegistersMatter : Prop :=
  ∀ (i : Instr) (s u : State), (∀ r ∈ sourcesOf i, u.getReg r = s.getReg r) → u.pc = s.pc → u.mem = s.mem →
    (∀ t, exec i s = .next t →
      ∃ v, exec i u = .next v ∧ v.pc = t.pc ∧ v.mem = t.mem ∧ ∀ d, destOf i = some d → v.getReg d = t.getReg d) ∧
    (∀ f, exec i s = .fault f → exec i u = .fault f)

/-- R30: `sw` is the only instruction that changes memory. -/
def Obligations.OnlySwChangesMemory : Prop :=
  ∀ (i : Instr) (s t : State), exec i s = .next t → i.opcode ≠ .sw → SameMemory s t

/-- 10_state.md R26: every instruction but `beq`, `jr` and `jrl` ends with `pc + 2` modulo 2^16, also after 0xFFFE (the
spec marks the increment as derived and the wrap as D13; log 10). -/
def Obligations.PcAdvancesUnlessTransfer : Prop :=
  ∀ (i : Instr) (s t : State), exec i s = .next t → i.opcode ≠ .beq → i.opcode ≠ .jr → i.opcode ≠ .jrl →
    t.pc.toNat = (s.pc.toNat + 2) % 2 ^ 16

/-- R21: an instruction whose destination is register 0 completes as it would, advances the pc (`jrl` is not one: its
destination is `$ra`), and changes no register and no word of memory; `lw` still makes its read and its checks. That the
write is discarded is D6 (log 9). -/
def Obligations.ZeroDestinationIsDiscarded : Prop :=
  ∀ (i : Instr) (s : State), destOf i = some 0#4 →
    (∀ rt, i = .lw 0#4 rt → (∀ v, memRead settings s (s.getReg rt) ≠ .next v) → ∀ t, exec i s ≠ .next t) ∧
    ((∀ rt, i = .lw 0#4 rt → ∃ v, memRead settings s (s.getReg rt) = .next v) →
      ∃ t, exec i s = .next t ∧ SameRegs s t ∧ SameMemory s t ∧ t.getReg 0#4 = 0#16 ∧ t.pc = s.pc + 2#16 ∧
        t.delayed = s.delayed)

/-- R197 with the conditions of R191 to R194: a step from an even pc faults exactly when one of them holds, with the fault
of the first in R197's order, and otherwise completes. The faults and their order are the spec's own device (D14; log 13);
the registers all hold a value (log 1), so R197 (3) cannot occur. From an odd pc a step is refused (log 15). -/
def Obligations.StepFaultsExactlyInOrder : Prop :=
  ∀ s : State,
    (s.pc.toNat % 2 = 0 → (∀ f, step s = .fault f ↔ expectedFault s = some f) ∧
      (expectedFault s = none → ∃ t, step s = .next t)) ∧
    (s.pc.toNat % 2 = 1 → step s = .refused (.oddProgramCounter s.pc))

/-! ## Steps and runs -/

/-- R11, R51, R56: where the word at an even pc decodes to `i`, a step is `exec i` at that state and nothing more: the rule
adds nothing around it on this hardware (no delay slot: C8, D5; log 4). -/
def Obligations.StepRunsDecodedInstruction : Prop :=
  ∀ (s : State) (w : Word) (i : Instr), s.pc.toNat % 2 = 0 → s.wordAt s.pc = some w → decode settings w = .ok i →
    step s = exec i s

/-- R193: a reserved encoding at the pc faults with the word; the fault is the spec's device (D4, D14; log 7, 13). -/
def Obligations.StepFaultsOnReservedEncoding : Prop :=
  ∀ (s : State) (w : Word), s.pc.toNat % 2 = 0 → s.wordAt s.pc = some w →
    decode settings w = .error (.reservedEncoding w) → step s = .fault (.reservedEncoding w s.pc)

/-- R63 (marked derived from the FSM table; D21): a store to the address of the next instruction is seen by the very next
fetch, with no instruction between. That the next pc is `pc + 2`, 0x0000 after 0xFFFE, is R26's inference and D13 (log 10);
that the store to every even address lands is `MEM_IMPLEMENTED` = all words (R6, D11; log 12). -/
def Obligations.StoreIsSeenByNextFetch : Prop :=
  ∀ (s : State) (rs rt : Reg) (i : Instr), s.pc.toNat % 2 = 0 → s.wordAt s.pc = some (encode (.sw rs rt)) →
    s.getReg rt = s.pc + 2#16 → s.getReg rs = encode i →
    ∃ t, step s = .next t ∧ t.pc = s.pc + 2#16 ∧ SameRegs s t ∧ step t = exec i t

/-- 60_exceptions.md R206 (the spec's convention, D16): at the end of a run a step changes nothing, so the state repeats for
ever. -/
def Obligations.EndOfRunIsFixedPoint : Prop :=
  ∀ s : State, atEnd s = true → step s = .next s ∧ ∀ n, Sys2Proof.core.run n s = .next s

/-! ## Invariants -/

/-- R27, R30, R57: every step keeps the pc even, memory in its canonical form, words at even addresses alone, and no
delay-slot target waiting. -/
def Obligations.StepKeepsInvariant : Prop := ∀ s t : State, s.Inv → step s = .next t → t.Inv

/-- The invariant holds right after reset. -/
def Obligations.ResetMeetsInvariant : Prop := State.reset.Inv

/-- The invariant holds at every state that any launch of the modelled machine, with any image, reaches (R27). -/
def Obligations.LaunchedRunsKeepInvariant : Prop :=
  ∀ (image : List (Word × Word)) (s t : State), launchImage image = .ok s → Reaches s t → t.Inv

/-! ## Memory -/

/-- R55, R60 (a): after a store that lands, a load of the same address gives the value stored, and a load of any other
word gives what it gave before, under every setting of the parameters. -/
def Obligations.LoadGivesLastStore : Prop :=
  ∀ (c : Config) (s t : State) (a v : Word), memWrite c s a v = .next t →
    memRead c t a = .next v ∧ ∀ b, dataAddress c s b ≠ dataAddress c s a → memRead c t b = memRead c s b

/-- R50: `BYTE_ORDER` is read by no rule: whatever it is set to, a step, a launch and the assembler answer the same. And
memory is a map from even addresses to words and nothing more: two memories in canonical form that hold the same words at the
even addresses are the same. -/
def Obligations.ByteOrderIsNotObservable : Prop :=
  (∀ (c : Config) (o : Option ByteOrder),
    (∀ s, stepWith { c with byteOrder := o } s = stepWith c s) ∧ launch { c with byteOrder := o } = launch c ∧
    ∀ src, assemble { c with byteOrder := o } src = assemble c src) ∧
  ∀ m n : Memory, Memory.wf m → Memory.wf n →
    (∀ a, isEven a = true → Memory.readWord m a = Memory.readWord n a) → m = n

/-- R52's two settings for an odd data address: the fault (D2; log 5), or the word at the address with bit 0 cleared (not
the modelled machine's). -/
def Obligations.OddDataAddressSettings : Prop :=
  ∀ (c : Config) (s : State) (a : Word), a.toNat % 2 = 1 →
    (c.misalignedData = .fault → memRead c s a = .fault (.misalignedData a s.pc) ∧
      ∀ v, memWrite c s a v = .fault (.misalignedData a s.pc)) ∧
    (c.misalignedData = .ignoreBit0 → memRead c s a = memRead c s (BitVec.ofNat 16 (a.toNat - 1)) ∧
      ∀ v, memWrite c s a v = memWrite c s (BitVec.ofNat 16 (a.toNat - 1)) v)

/-- R54 to R56, R194, R195, R197 under every setting of `MEM_IMPLEMENTED` and `MISALIGNED_DATA`: a fetch, `lw` or `sw` at an
even address outside `MEM_IMPLEMENTED` faults with that address, after the check of alignment and before that for a value;
where the checks hold, `lw` and `sw` have their effect at the address, bit 0 cleared where it is odd and ignored. The faults are
the spec's device (D2, D11, D14; log 5, 12, 13); under the modelled settings every word is implemented; the pc's increment is
D13 (log 10). -/
def Obligations.MemoryChecksUnderEverySetting : Prop :=
  ∀ (c : Config) (rs rt : Reg) (s : State),
    let a := s.getReg rt
    let w : Word := BitVec.ofNat 16 (a.toNat - a.toNat % 2)
    (s.pc.toNat % 2 = 0 →
      (c.memImplemented s.pc = false → stepWith c s = .fault (.unimplementedMemory s.pc s.pc)) ∧
      (c.memImplemented s.pc = true → s.wordAt s.pc = none → stepWith c s = .fault (.uninitialisedRead s.pc s.pc))) ∧
    (a.toNat % 2 = 1 → c.misalignedData = .fault →
      execWith c (.lw rs rt) s = .fault (.misalignedData a s.pc) ∧
      execWith c (.sw rs rt) s = .fault (.misalignedData a s.pc)) ∧
    (a.toNat % 2 = 0 ∨ c.misalignedData = .ignoreBit0 →
      (c.memImplemented w = false →
        execWith c (.lw rs rt) s = .fault (.unimplementedMemory w s.pc) ∧
        execWith c (.sw rs rt) s = .fault (.unimplementedMemory w s.pc)) ∧
      (c.memImplemented w = true →
        (s.wordAt w = none → execWith c (.lw rs rt) s = .fault (.uninitialisedRead w s.pc)) ∧
        (∀ v, s.wordAt w = some v →
          ∃ t, execWith c (.lw rs rt) s = .next t ∧ WritesOnlyReg rs v s t ∧ t.pc = s.pc + 2#16) ∧
        ∃ t, execWith c (.sw rs rt) s = .next t ∧ t.wordAt w = some (s.getReg rs) ∧ SameMemoryExcept w s t ∧
          SameRegs s t ∧ t.pc = s.pc + 2#16 ∧ t.delayed = s.delayed))

/-! ## Reset and launch -/

/-- 10_state.md R32, 70_reset_and_hazards.md R220: register 0 reads as zero (the source's), the pc is 0x0000 (D9; log 3),
no word of memory holds a value (D11; log 12), and registers 1 to 15 are zero (the model's choice; log 1). -/
def Obligations.ResetState : Prop :=
  State.reset.getReg 0#4 = 0#16 ∧ State.reset.pc = 0x0000#16 ∧ (∀ a, State.reset.wordAt a = none) ∧
    (∀ r : Reg, State.reset.getReg r = 0#16) ∧ State.reset.delayed = none

/-- R221, R32: a launch is refused when its entry point is odd, and, which is the model's choice (log 25), when it is even and not
implemented or when a word of the image lies at an odd or absent address. Every other launch is accepted: its state has the
parameters' pc and registers, no delay-slot target waits (the model's own field; log 4), every word of an image of distinct
addresses is in memory, and a word the image does not cover holds no value. -/
def Obligations.LaunchLoadsImage : Prop :=
  ∀ c : Config,
    (c.resetPc.toNat % 2 = 1 → launch c = .error .oddResetPc) ∧
    (c.resetPc.toNat % 2 = 0 → c.memImplemented c.resetPc = false → launch c = .error .resetPcNotImplemented) ∧
    (c.resetPc.toNat % 2 = 0 → c.memImplemented c.resetPc = true →
      ((∃ p ∈ c.memInit, p.1.toNat % 2 = 1 ∨ c.memImplemented p.1 = false) → launch c = .error .badImage) ∧
      ((∀ p ∈ c.memInit, p.1.toNat % 2 = 0 ∧ c.memImplemented p.1 = true) → ∃ s, launch c = .ok s)) ∧
    ∀ s, launch c = .ok s →
      s.pc = c.resetPc ∧ (∀ r : Reg, s.getReg r = if r = 0#4 then 0#16 else c.resetGpr r) ∧ s.delayed = none ∧
      ((c.memInit.map Prod.fst).Nodup → ∀ p ∈ c.memInit, s.wordAt p.1 = some p.2) ∧
      ∀ a : Word, a ∉ c.memInit.map Prod.fst → s.wordAt a = none

/-! ## The CPU cycle by cycle -/

/-- R230, R231, R11: under every setting of the parameters the CPU driven by the control signals, from Fetch with memory
ready, does to the architectural state what the instruction's rule says and is at Fetch again after the cycles R232 counts;
where the instruction faults so does it. Under the modelled settings that rule is `exec`. (The fault device, R190, is the
spec's: log 13. The ALU's second input is deduced: log 16. A transfer in a delay slot is the model's choice: log 22.) -/
def Obligations.CpuCyclesRefineInstruction : Prop :=
  (∀ (c : Config) (u : Cpu) (i : Instr), u.cycle = .c2 → fetchInstr c u.arch = .next i →
    (∀ t, runDecoded c (execWith c i) u.arch = .next t →
      ∃ v, Cpu.clocks c (instrCycles i.opcode) u = .next v ∧ v.arch = t ∧ v.cycle = .c2) ∧
    (∀ f, runDecoded c (execWith c i) u.arch = .fault f → Cpu.clocks c (instrCycles i.opcode) u = .fault f)) ∧
  ∀ (i : Instr) (s : State), runDecoded settings (execWith settings i) s = exec i s

/-- R232: an instruction takes 7 cycles, `lw` and `sw` 10, and the CPU is not at Fetch again before that; `push` takes 31
and the whole `call` sequence 83 (derived by the spec from R231). -/
def Obligations.InstructionCycleCounts : Prop :=
  (∀ i : Instr, instrCycles i.opcode = if i.opcode = .lw ∨ i.opcode = .sw then 10 else 7) ∧
  (∀ (u v : Cpu) (i : Instr) (n : Nat), u.cycle = .c2 → fetchInstr settings u.arch = .next i →
    0 < n → n < instrCycles i.opcode → Cpu.clocks settings n u = .next v → v.cycle ≠ .c2) ∧
  (∀ rs : Reg, totalCycles (Pseudo.push rs).expand = 31) ∧ (∀ f : Word, totalCycles (Pseudo.call f).expand = 83)

/-- R66: where the table asks "If memory is ready" and it is not, a cycle changes nothing: the CPU waits. -/
def Obligations.CpuWaitsForMemory : Prop :=
  ∀ (c : Config) (u : Cpu), u.cycle = .c2 ∨ u.cycle = .c6 ∨ u.cycle = .c11 → u.clock c false = .next u

/-! ## Pseudo-instructions -/

/-- R174, R95: an expansion has the number of hardware instructions of its box, whatever the operands. -/
def Obligations.ExpansionSizes : Prop := ∀ p : Pseudo Word, p.expand.length = p.size

/-- R160: `li` is two instructions, `lui` with bits 15:8 of the immediate and `ori` with bits 7:0; run in that order they
place the immediate in `rs` and touch no other register and no memory. -/
def Obligations.LiEffect : Prop :=
  ∀ (rs : Reg) (v : Word) (s : State),
    (Pseudo.li rs v).expand = [.lui rs (BitVec.ofNat 8 (v.toNat / 0x100)), .ori rs (BitVec.ofNat 8 (v.toNat % 0x100))] ∧
    ∃ t, execSeq (Pseudo.li rs v).expand s = .next t ∧ WritesOnlyReg rs v s t

/-- R161, R162, R171 to R173: the pseudo-instructions that load an immediate into `$at` and combine it with a register.
A source that is `$at` itself is read after `$at` was loaded (the collisions the rules name). The pc's increments are D13
(log 10). -/
def Obligations.ImmediatePseudoEffects : Prop :=
  ∀ (rs rd : Reg) (v : Word) (n : BitVec 4) (s : State),
    let viaAt (w : Word) : Word := if rs = .at then w else s.getReg rs
    let effect (p : Pseudo Word) (loaded result : Word) : Prop :=
      ∃ t, execSeq p.expand s = .next t ∧ t.getReg rd = (if rd = 0#4 then 0#16 else result) ∧
        (rd ≠ .at → t.getReg .at = loaded) ∧ SameRegsExcept [rd, .at] s t ∧ SameMemory s t ∧ t.pc = s.pc + 6#16
    let amount : Word := BitVec.ofNat 16 n.toNat
    effect (.addi rs v rd) v (viaAt v + v) ∧
    effect (.andi rs v rd) v (viaAt v &&& v) ∧
    effect (.slli n rs rd) amount (viaAt amount <<< n.toNat) ∧
    effect (.srli n rs rd) amount (viaAt amount >>> n.toNat) ∧
    effect (.bsri n rs rd) amount ((viaAt amount).rotateRight n.toNat)

/-- R164, R165: `lwo` and `swo` access the word at `x[rt] + imm16` modulo 2^16 and leave that address in `$at`. The sum
must be even, and hold a value for `lwo` (D2, D11; log 5, 12). That the store to every even address lands is `MEM_IMPLEMENTED`
= all words (R6, D11; log 12); the pc's increments are D13 (log 10). -/
def Obligations.OffsetPseudoEffects : Prop :=
  ∀ (rs rt : Reg) (imm : Word) (s : State),
    let ea : Word := (if rt = .at then imm else s.getReg rt) + imm
    ea.toNat % 2 = 0 →
    (∀ v, s.wordAt ea = some v →
      ∃ t, execSeq (Pseudo.lwo rs rt imm).expand s = .next t ∧ t.getReg rs = (if rs = 0#4 then 0#16 else v) ∧
        (rs ≠ .at → t.getReg .at = ea) ∧ SameRegsExcept [rs, .at] s t ∧ SameMemory s t ∧ t.pc = s.pc + 8#16) ∧
    ∃ t, execSeq (Pseudo.swo rs rt imm).expand s = .next t ∧ t.getReg .at = ea ∧ SameRegsExcept [.at] s t ∧
      t.wordAt ea = some (if rs = .at then ea else s.getReg rs) ∧ SameMemoryExcept ea s t ∧ t.pc = s.pc + 8#16

/-- R166: `push` decrements `$sp` by 2 and stores the register there; `$at` is left 0xFFFE. That the store to every even address
lands is `MEM_IMPLEMENTED` = all words (R6, D11; log 12); the pc's increments are D13 (log 10). -/
def Obligations.PushEffect : Prop :=
  ∀ (rs : Reg) (s : State), (s.getReg .sp).toNat % 2 = 0 →
    ∃ t, execSeq (Pseudo.push rs).expand s = .next t ∧ t.getReg .sp = s.getReg .sp - 2#16 ∧ t.getReg .at = 0xFFFE#16 ∧
      SameRegsExcept [.sp, .at] s t ∧
      t.wordAt (s.getReg .sp - 2#16) =
        some (if rs = .at then 0xFFFE#16 else if rs = .sp then s.getReg .sp - 2#16 else s.getReg rs) ∧
      SameMemoryExcept (s.getReg .sp - 2#16) s t ∧ t.pc = s.pc + 8#16

/-- R167: `pop` loads the register from the word at `$sp` and increments `$sp` by 2; `$at` is left 0x0002, so that `pop $at`
loses the word and `pop $sp` leaves the word plus 2. The word stays in memory. The pc's increments are D13 (log 10). -/
def Obligations.PopEffect : Prop :=
  ∀ (rs : Reg) (s : State) (v : Word), (s.getReg .sp).toNat % 2 = 0 → s.wordAt (s.getReg .sp) = some v →
    ∃ t, execSeq (Pseudo.pop rs).expand s = .next t ∧ (rs ≠ 0#4 → rs ≠ .at → rs ≠ .sp → t.getReg rs = v) ∧
      t.getReg .at = 0x0002#16 ∧ t.getReg .sp = (if rs = .sp then v else s.getReg .sp) + 2#16 ∧
      SameRegsExcept [rs, .sp, .at] s t ∧ SameMemory s t ∧ t.pc = s.pc + 8#16

/-- R163: `sub` with `rt` other than `rd`, neither of them `$at` or `$sp`, `rs` other than `$sp`, and an even `$sp`: the
difference modulo 2^16 in `rd`, with `rt` negated in place where it is `rs` too and 1 for an `rs` that is `$at` (the
collisions the rule names); `rt` and `$sp` as they began, 0x0002 in `$at`, and the old `x[rt]` in the stack word below
`$sp`. R163 asks for an implemented stack word: every even address is one by `MEM_IMPLEMENTED` = all words (R6, D11; log 12).
The pc's increments are D13 (log 10). -/
def Obligations.SubEffect : Prop :=
  ∀ (rs rt rd : Reg) (s : State), rt ≠ rd → rs ≠ .sp → (∀ r ∈ [rt, rd], r ≠ .at ∧ r ≠ .sp) → (s.getReg .sp).toNat % 2 = 0 →
    let minuend : Word := if rs = .at then 1#16 else if rs = rt then 0#16 - s.getReg rt else s.getReg rs
    ∃ t, execSeq (Pseudo.sub rs rt rd).expand s = .next t ∧
      t.getReg rd = (if rd = 0#4 then 0#16 else minuend - s.getReg rt) ∧ t.getReg .at = 0x0002#16 ∧
      SameRegsExcept [rd, .at] s t ∧ t.wordAt (s.getReg .sp - 2#16) = some (s.getReg rt) ∧
      SameMemoryExcept (s.getReg .sp - 2#16) s t ∧ t.pc = s.pc + 26#16

/-- R168: at the callee's first instruction, after the first seven words of `call %func` at address `c`: the pc and `$la`
are `func`, `$at` is 0xFFFE, `$sp` is two less with the caller's `$ra` in its word, and `$ra` is `c + 14`, the address of
the first word of `pop $ra` (the link `pc + 2` and no delay slot are C8 and D5; log 4). `func` and `$sp` are even. That the push
lands at every even `$sp - 2` is `MEM_IMPLEMENTED` = all words (R6, D11; log 12); the pc's increments are D13 (log 10). -/
def Obligations.CallEntersCallee : Prop :=
  ∀ (func : Word) (s : State), func.toNat % 2 = 0 → (s.getReg .sp).toNat % 2 = 0 →
    (Pseudo.call func).expand.drop 7 = (Pseudo.pop .ra).expand ∧
    ∃ t, execSeq ((Pseudo.call func).expand.take 7) s = .next t ∧ t.pc = func ∧ t.getReg .la = func ∧
      t.getReg .at = 0xFFFE#16 ∧ t.getReg .sp = s.getReg .sp - 2#16 ∧ t.getReg .ra = s.pc + 14#16 ∧
      t.wordAt (s.getReg .sp - 2#16) = some (s.getReg .ra) ∧ SameRegsExcept [.la, .at, .sp, .ra] s t ∧
      SameMemoryExcept (s.getReg .sp - 2#16) s t

/-- R169, R170: `jmp` goes to its label and `jeq` does if the registers are equal, with the label in `$la` in every case; if
`rs` or `rt` is `$la` the comparison sees the label address. The label is even. That the pc is the label at once, with no
delay slot, is C8 and D5 (log 4); the pc's increments are D13 (log 10). -/
def Obligations.JumpPseudoEffects : Prop :=
  ∀ (rs rt : Reg) (l : Word) (s : State), l.toNat % 2 = 0 →
    let sees (r : Reg) : Word := if r = .la then l else s.getReg r
    (∃ t, execSeq (Pseudo.jmp l).expand s = .next t ∧ WritesOnlyReg .la l s t ∧ t.pc = l) ∧
    ∃ t, execSeq (Pseudo.jeq rs rt l).expand s = .next t ∧ WritesOnlyReg .la l s t ∧
      t.pc = if sees rs = sees rt then l else s.pc + 6#16

/-! ## The assembler -/

/-- R94, R93, R163, R160 to R173: every well-formed statement is an instruction or a pseudo-instruction, none is shut out, and
which one it is: a hardware mnemonic's operands stand in the fields of its word in the order in which they are written, high
field first, and a pseudo-instruction's are those of its syntax row. The ranges are D20, and that a 16-bit immediate may be a
label everywhere is the model's choice (log 17). -/
def Obligations.WellFormedStatementsAssemble : Prop :=
  (∀ t : Stmt, t.wf = true → ∃ c, t.check = .ok c) ∧
  ∀ (rs rt rd : Reg) (n : Nat) (l : LabelName),
    let hw (op : Opcode) (os : List Operand) (w : Word) : Prop :=
      ∃ i, (Stmt.mk (.hw op) os).check = .ok (.hw i) ∧ encode i = w
    let ps (name : PseudoName) (os : List Operand) (p : Pseudo Imm16) : Prop := (Stmt.mk (.ps name) os).check = .ok (.ps p)
    let three : List Operand := [.reg rs, .reg rt, .reg rd]
    let withImm16 (o : Operand) (v : Imm16) : Prop :=
      ps .li [.reg rs, o] (.li rs v) ∧ ps .addi [.reg rs, o, .reg rd] (.addi rs v rd) ∧
      ps .andi [.reg rs, o, .reg rd] (.andi rs v rd) ∧ ps .lwo [.reg rs, .reg rt, o] (.lwo rs rt v) ∧
      ps .swo [.reg rs, .reg rt, o] (.swo rs rt v)
    (hw .add three (0x0#4 ++ rs ++ rt ++ rd) ∧ hw .and three (0x1#4 ++ rs ++ rt ++ rd) ∧
      hw .beq three (0x2#4 ++ rs ++ rt ++ rd) ∧ hw .bsr three (0x7#4 ++ rs ++ rt ++ rd) ∧
      hw .nor three (0x8#4 ++ rs ++ rt ++ rd) ∧ hw .or three (0x9#4 ++ rs ++ rt ++ rd) ∧
      hw .sll three (0xB#4 ++ rs ++ rt ++ rd) ∧ hw .slt three (0xC#4 ++ rs ++ rt ++ rd) ∧
      hw .xor three (0xD#4 ++ rs ++ rt ++ rd) ∧ hw .srl three (0xE#4 ++ rs ++ rt ++ rd)) ∧
    (hw .jr [.reg rd] (0x3#4 ++ 0x0#4 ++ 0x0#4 ++ rd) ∧ hw .jrl [.reg rd] (0x4#4 ++ 0x0#4 ++ 0x0#4 ++ rd) ∧
      hw .lw [.reg rs, .reg rt] (0x6#4 ++ rs ++ rt ++ 0x0#4) ∧ hw .sw [.reg rs, .reg rt] (0xF#4 ++ rs ++ rt ++ 0x0#4)) ∧
    (n < 0x100 → hw .lui [.reg rs, .imm n] (0x5#4 ++ rs ++ BitVec.ofNat 8 n) ∧
      hw .ori [.reg rs, .imm n] (0xA#4 ++ rs ++ BitVec.ofNat 8 n)) ∧
    (n < 0x10000 → withImm16 (.imm n) (.lit (BitVec.ofNat 16 n))) ∧ withImm16 (.label l) (.label l) ∧
    (rt ≠ rd → ps .sub three (.sub rs rt rd)) ∧
    (ps .push [.reg rs] (.push rs) ∧ ps .pop [.reg rs] (.pop rs) ∧ ps .call [.label l] (.call (.label l)) ∧
      ps .jmp [.label l] (.jmp (.label l)) ∧ ps .jeq [.reg rs, .reg rt, .label l] (.jeq rs rt (.label l))) ∧
    (n < 0x10 → ps .slli [.imm n, .reg rt, .reg rd] (.slli (BitVec.ofNat 4 n) rt rd) ∧
      ps .srli [.imm n, .reg rt, .reg rd] (.srli (BitVec.ofNat 4 n) rt rd) ∧
      ps .bsri [.imm n, .reg rt, .reg rd] (.bsri (BitVec.ofNat 4 n) rt rd))

/-- R96, R95: the words of an accepted text stand at consecutive word addresses from `LOAD_BASE`, as many as the lines'
fixed sizes add up to (the location counter is the spec's choice, D12; log 19). -/
def Obligations.AssembledWordsAreConsecutive : Prop :=
  ∀ (c : Config) (src : List Char) (image : List (Word × Word)), assemble c src = .ok image →
    (∃ (ls : List SrcLine) (ns : List Nat), parseLines (splitAtChar '\n' src) = .ok ls ∧
      (ls.map fun l => l.item.size c) = ns.map .ok ∧ image.length = ns.sum) ∧
    ∀ (k : Nat) (h : k < image.length), c.loadBase.toNat + 2 * k + 2 ≤ 0x10000 ∧
      (image[k]'h).1.toNat = c.loadBase.toNat + 2 * k

/-- R96, R91: a label's value is the location counter at the start of its line: where the first word's address is `loc`, that
plus two for each word of the lines before it (the location counter is the spec's choice, D12; log 19). -/
def Obligations.LabelsAreLineAddresses : Prop :=
  ∀ (c : Config) (ls : List SrcLine) (loc : Nat) (t : LabelTable), collectLabels c ls loc [] = .ok t →
    ∀ (j : Nat) (h : j < ls.length) (name : LabelName), (ls[j]'h).label = some name →
      ∃ ns : List Nat, ((ls.take j).map fun l => l.item.size c) = ns.map .ok ∧
        t.lookup name = some (BitVec.ofNat 16 (loc + 2 * ns.sum))

/-- R97 with D17 (log 18): while no layout is supplied, a text with a `.asciiz` line is refused. -/
def Obligations.AsciizRefusedWithoutPacking : Prop :=
  ∀ (c : Config) (src : List Char) (ls : List SrcLine), c.asciizPacking = none →
    parseLines (splitAtChar '\n' src) = .ok ls → (∃ l ∈ ls, ∃ text, l.item = .data text) →
    ∀ image, assemble c src ≠ .ok image

/-- 95_test_vectors.md A4, C7: worked encodings of source lines: the source's label example, two rows with distinct operands,
`call`, and `sub`. That the first word stands at 0x0000 and each next one two further is `LOAD_BASE` and the location counter
(D12; log 19). -/
def Obligations.AssemblesWorkedExamples : Prop :=
  assemble settings "Label1: add $t1, $0, $t1".toList = .ok [(0x0000#16, 0x0606#16)] ∧
  assemble settings "swo $s0,$s1,0x0004".toList =
    .ok [(0x0000#16, 0x5E00#16), (0x0002#16, 0xAE04#16), (0x0004#16, 0x02EE#16), (0x0006#16, 0xF1E0#16)] ∧
  assemble settings "bsri 0x3,$s0,$s1".toList =
    .ok [(0x0000#16, 0x5E00#16), (0x0002#16, 0xAE03#16), (0x0004#16, 0x7E12#16)] ∧
  ((Pseudo.call 0x0100#16).expand.map encode =
    [0x5B01#16, 0xAB00#16, 0x5EFF#16, 0xAEFE#16, 0x0CEC#16, 0xFFC0#16, 0x400B#16, 0x6FC0#16, 0x5E00#16, 0xAE02#16,
      0x0CEC#16]) ∧
  ((Pseudo.sub .s0 .s1 .s2).expand.map encode =
    [0x5EFF#16, 0xAEFE#16, 0x0CEC#16, 0xF2C0#16, 0x8202#16, 0x5E00#16, 0xAE01#16, 0x02E2#16, 0x0123#16, 0x62C0#16,
      0x5E00#16, 0xAE02#16, 0x0CEC#16])
end

