-- ==== Sys2Proof/Laws/Memory.lean ====
section
/-! SUPPORT. Memory: reading after a write, and that every operation keeps the canonical form, which is unique. -/

namespace Sys2Proof.Machine

/-! ### Listed words -/

theorem read_write (m : Memory) (a b : Nat) (v : Word) :
    Memory.read (Memory.write m a v) b = if b = a then some v else Memory.read m b := by
  induction m with
  | nil => simp [Memory.write, Memory.read, eq_comm]
  | cons p rest ih =>
    obtain ⟨k, w⟩ := p
    simp only [Memory.write]
    split
    · simp [Memory.read, eq_comm]
    · split
      · subst k
        by_cases h : b = a
        · simp [Memory.read, h]
        · simp [Memory.read, h, Ne.symm h]
      · simp only [Memory.read, ih]
        by_cases h : k = b
        · subst h; simp [show ¬k = a by omega]
        · simp [h]

theorem mem_write {m : Memory} {a : Nat} {v : Word} {p : Nat × Word} (h : p ∈ Memory.write m a v) : p = (a, v) ∨ p ∈ m := by
  induction m with
  | nil => simpa [Memory.write] using h
  | cons q rest ih =>
    obtain ⟨k, w⟩ := q
    simp only [Memory.write] at h
    split at h
    · simpa using h
    · split at h
      · rcases List.mem_cons.mp h with h | h <;> simp [h]
      · rcases List.mem_cons.mp h with h | h
        · simp [h]
        · rcases ih h with h | h <;> simp [h]

/-- A write at an even address keeps the canonical form. -/
theorem write_wf {m : Memory} (h : Memory.wf m) {a : Nat} (ha : a % 2 = 0 ∧ a < 0x10000) (v : Word) : Memory.wf (Memory.write m a v) := by
  refine ⟨?_, fun p hp => ?_⟩
  · obtain ⟨hs, -⟩ := h
    induction m with
    | nil => simp [Memory.write]
    | cons q rest ih =>
      obtain ⟨k, w⟩ := q
      rw [List.pairwise_cons] at hs
      simp only [Memory.write]
      split
      · refine List.pairwise_cons.mpr ⟨fun p hp => ?_, List.pairwise_cons.mpr hs⟩
        rcases List.mem_cons.mp hp with rfl | hp
        · assumption
        · have := hs.1 p hp; simp only at *; omega
      · split
        · subst k; exact List.pairwise_cons.mpr hs
        · refine List.pairwise_cons.mpr ⟨fun p hp => ?_, ih hs.2⟩
          rcases mem_write hp with rfl | hp
          · simp only; omega
          · exact hs.1 p hp
  · rcases mem_write hp with rfl | hp
    · exact ha
    · exact h.2 p hp

theorem read_of_lt_head {m : Memory} {a : Nat} (h : ∀ p ∈ m, a < p.1) : Memory.read m a = none := by
  induction m with
  | nil => rfl
  | cons q rest ih =>
    obtain ⟨k, w⟩ := q
    have := h (k, w) (by simp)
    simp only [Memory.read, show ¬k = a by simp only at this; omega, if_false]
    exact ih fun p hp => h p (by simp [hp])

/-- Two memories in canonical form that read alike are the same list. -/
theorem wf_ext {m n : Memory} (hm : Memory.wf m) (hn : Memory.wf n) (h : ∀ a, Memory.read m a = Memory.read n a) : m = n := by
  obtain ⟨hm, -⟩ := hm
  obtain ⟨hn, -⟩ := hn
  revert hn h
  induction m generalizing n with
  | nil =>
    intro h hn
    cases n with
    | nil => rfl
    | cons q _ => have := h q.1; simp [Memory.read] at this
  | cons p rest ih =>
    intro h hn
    cases n with
    | nil => have := h p.1; simp [Memory.read] at this
    | cons q rest' =>
      obtain ⟨k, w⟩ := p
      obtain ⟨k', w'⟩ := q
      rw [List.pairwise_cons] at hm hn
      have hk : k = k' := by
        rcases Nat.lt_trichotomy k k' with hlt | heq | hlt
        · have h1 := h k
          rw [read_of_lt_head (m := (k', w') :: rest')] at h1
          · simp [Memory.read] at h1
          · intro p hp
            rcases List.mem_cons.mp hp with rfl | hp
            · exact hlt
            · exact lt_trans hlt (hn.1 p hp)
        · exact heq
        · have h1 := h k'
          rw [read_of_lt_head (m := (k, w) :: rest)] at h1
          · simp [Memory.read] at h1
          · intro p hp
            rcases List.mem_cons.mp hp with rfl | hp
            · exact hlt
            · exact lt_trans hlt (hm.1 p hp)
      subst hk
      have hw : w = w' := by have := h k; simpa [Memory.read] using this
      subst hw
      refine congrArg _ (ih hm.2 (fun a => ?_) hn.2)
      by_cases ha : k = a
      · subst ha
        rw [read_of_lt_head hm.1, read_of_lt_head hn.1]
      · have := h a; simpa [Memory.read, ha] using this

/-- In canonical form nothing is listed at an odd address or past the address space. -/
theorem read_outside {m : Memory} (h : Memory.wf m) {a : Nat} (ha : ¬(a % 2 = 0 ∧ a < 0x10000)) : Memory.read m a = none := by
  obtain ⟨-, h⟩ := h
  induction m with
  | nil => rfl
  | cons q rest ih =>
    obtain ⟨k, w⟩ := q
    have hk := h (k, w) (by simp)
    have : k ≠ a := by rintro rfl; exact ha hk
    simp only [Memory.read, this, if_false]
    exact ih fun p hp => h p (by simp [hp])

/-! ### Words -/

theorem isEven_iff (a : Word) : isEven a = true ↔ a.toNat % 2 = 0 := by
  simp [isEven, BitVec.getLsbD, Nat.testBit_zero]

/-- Reading a word after writing one: the value written at the same address, and the old word at any other. -/
theorem readWord_writeWord (m : Memory) (a b v : Word) :
    Memory.readWord (Memory.writeWord m a v) b = if b = a then some v else Memory.readWord m b := by
  simp [Memory.readWord, Memory.writeWord, read_write, BitVec.toNat_inj]

/-- A word write keeps the canonical form. -/
theorem writeWord_wf {m : Memory} (h : Memory.wf m) {a : Word} (ha : isEven a = true) (v : Word) :
    Memory.wf (Memory.writeWord m a v) :=
  write_wf h ⟨(isEven_iff a).mp ha, a.isLt⟩ v

/-- A memory image at even addresses keeps the canonical form. -/
theorem load_wf (image : List (Word × Word)) (h : ∀ p ∈ image, isEven p.1 = true) (m : Memory) (hm : Memory.wf m) :
    Memory.wf (Memory.load m image) := by
  induction image generalizing m with
  | nil => exact hm
  | cons p rest ih => exact ih (fun q hq => h q (by simp [hq])) _ (writeWord_wf hm (h p (by simp)) p.2)

end Sys2Proof.Machine
end

