-- ==== Sys2Proof/Laws/State.lean ====
section
/-! SUPPORT. One lemma per field per update of the state, and reading a register after an update. -/

namespace Sys2Proof.Machine

/-! ### Registers -/

@[simp] theorem getReg_zero (s : State) : s.getReg 0#4 = 0#16 := rfl

@[simp] theorem setReg_zero (s : State) (v : Word) : s.setReg 0#4 v = s := rfl

theorem reg_index_ne {r d : Reg} (hr : r ≠ 0#4) (hd : d ≠ 0#4) (h : r ≠ d) : d.toNat - 1 ≠ r.toNat - 1 := by
  have hr' : r.toNat ≠ 0 := fun e => hr (BitVec.eq_of_toNat_eq e)
  have hd' : d.toNat ≠ 0 := fun e => hd (BitVec.eq_of_toNat_eq e)
  have hne : r.toNat ≠ d.toNat := fun e => h (BitVec.eq_of_toNat_eq e)
  omega

theorem getReg_setReg (s : State) (d : Reg) (v : Word) (r : Reg) :
    (s.setReg d v).getReg r = if r = d ∧ d ≠ 0#4 then v else s.getReg r := by
  by_cases hd : d = 0#4
  · simp [hd]
  · by_cases hr : r = 0#4
    · subst hr; simp [Ne.symm (a := d) hd]
    · by_cases h : r = d
      · subst h; simp [State.getReg, State.setReg, hd]
      · simp [State.getReg, State.setReg, hd, hr, h, reg_index_ne hr hd h]

theorem getReg_setReg_same (s : State) {d : Reg} (hd : d ≠ 0#4) (v : Word) : (s.setReg d v).getReg d = v := by
  simp [getReg_setReg, hd]

theorem getReg_setReg_ne (s : State) {d r : Reg} (h : r ≠ d) (v : Word) : (s.setReg d v).getReg r = s.getReg r := by
  simp [getReg_setReg, h]

/-! ### The fields an update leaves -/

@[simp] theorem setReg_pc (s : State) (d : Reg) (v : Word) : (s.setReg d v).pc = s.pc := by
  unfold State.setReg; split <;> rfl
@[simp] theorem setReg_mem (s : State) (d : Reg) (v : Word) : (s.setReg d v).mem = s.mem := by
  unfold State.setReg; split <;> rfl
@[simp] theorem setReg_delayed (s : State) (d : Reg) (v : Word) : (s.setReg d v).delayed = s.delayed := by
  unfold State.setReg; split <;> rfl

@[simp] theorem advance_regs (s : State) : s.advance.regs = s.regs := rfl
@[simp] theorem advance_pc (s : State) : s.advance.pc = s.pc + 2#16 := rfl
@[simp] theorem advance_mem (s : State) : s.advance.mem = s.mem := rfl
@[simp] theorem advance_delayed (s : State) : s.advance.delayed = s.delayed := rfl
@[simp] theorem getReg_advance (s : State) (r : Reg) : s.advance.getReg r = s.getReg r := rfl

/-! ### The settings, so that no proof unfolds `settings` -/

@[simp] theorem settings_resetPc : settings.resetPc = 0#16 := rfl
@[simp] theorem settings_resetGpr (r : Reg) : settings.resetGpr r = 0#16 := rfl
@[simp] theorem settings_memInit : settings.memInit = [] := rfl
@[simp] theorem settings_loadBase : settings.loadBase = 0#16 := rfl
@[simp] theorem settings_asciizPacking : settings.asciizPacking = none := rfl
@[simp] theorem settings_misalignedData : settings.misalignedData = .fault := rfl
@[simp] theorem settings_misalignedTarget : settings.misalignedTarget = .fault := rfl
@[simp] theorem settings_sbzNonzero : settings.sbzNonzero = .fault := rfl
@[simp] theorem settings_sltFalseValue : settings.sltFalseValue = 0#16 := rfl
@[simp] theorem settings_byteOrder : settings.byteOrder = none := rfl
@[simp] theorem settings_delaySlot : settings.delaySlot = false := rfl
@[simp] theorem settings_linkOffset : settings.linkOffset = .two := rfl

/-- Under `settings` a taken transfer just writes the pc (R124). -/
@[simp] theorem transfer_settings (s : State) (t : Word) : s.transfer settings t = { s with pc := t } := rfl

@[simp] theorem getReg_withPc (s : State) (p : Word) (r : Reg) : ({ s with pc := p } : State).getReg r = s.getReg r := rfl
@[simp] theorem getReg_withMem (s : State) (m : Memory) (r : Reg) : ({ s with mem := m } : State).getReg r = s.getReg r := rfl

@[simp] theorem setReg_withPc (s : State) (p : Word) (d : Reg) (v : Word) :
    ({ s with pc := p } : State).setReg d v = { s.setReg d v with pc := p } := by
  unfold State.setReg; split <;> rfl

/-- Under `settings` running a decoded instruction is running it: there is no delay slot (R124). -/
@[simp] theorem runDecoded_settings (run : State → Result State) (s : State) : runDecoded settings run s = run s := rfl

/-- Under `settings` the link is the address of the next instruction (R124). -/
@[simp] theorem linkValue_settings (s : State) : linkValue settings s = s.pc + 2#16 := rfl

/-! ### `andThen` -/

@[simp] theorem andThen_next {α β : Type} (a : α) (f : α → Result β) : andThen (.next a) f = f a := rfl
@[simp] theorem andThen_fault {α β : Type} (e : Fault) (f : α → Result β) : andThen (.fault e) f = .fault e := rfl
@[simp] theorem andThen_refused {α β : Type} (e : Refusal) (f : α → Result β) : andThen (.refused e) f = .refused e := rfl

theorem andThen_eq_next {α β : Type} {r : Result α} {f : α → Result β} {b : β} :
    andThen r f = .next b ↔ ∃ a, r = .next a ∧ f a = .next b := by
  cases r <;> simp [andThen]

end Sys2Proof.Machine
end

