-- ==== Sys2Proof/Laws/Ops.lean ====
section
/-! SUPPORT. For each shared operation, once, everything it can answer; later proofs cite these instead of unfolding. -/

namespace Sys2Proof.Machine

/-! ### Alignment (R52, R120) -/

theorem clearBit0_even (a : Word) : isEven (a &&& 0xFFFE#16) = true := by
  simp [isEven]

theorem clearBit0_of_even {a : Word} (h : isEven a = true) : a &&& 0xFFFE#16 = a := by
  apply BitVec.eq_of_getLsbD_eq; intro i hi
  have h0 : a.getLsbD 0 = false := by simpa [isEven] using h
  rw [BitVec.getLsbD_and]
  rcases Nat.eq_zero_or_pos i with rfl | hp
  · rw [h0]; rfl
  · have : ∀ i : Fin 16, 0 < i.val → (0xFFFE#16).getLsbD i.val = true := by decide
    simp [this ⟨i, hi⟩ hp]

/-- An address with bit 0 cleared, as a number. -/
theorem clearBit0_toNat (a : Word) : (a &&& 0xFFFE#16).toNat = a.toNat / 2 * 2 := by
  have h : a &&& 0xFFFE#16 = (a >>> 1) <<< 1 := by
    apply BitVec.eq_of_getLsbD_eq; intro i hi
    have : ∀ i : Fin 16, (0xFFFE#16).getLsbD i.val = decide (0 < i.val) := by decide
    rw [BitVec.getLsbD_and, this ⟨i, hi⟩]
    rcases i with _ | i <;> simp [hi, Nat.add_comm 1]
  have := a.isLt
  rw [h]; simp [Nat.shiftLeft_eq, Nat.shiftRight_eq_div_pow]; omega

/-- What an alignment check answers: the address itself where it is even; else the fault, or the address with bit 0
cleared, as the setting says. -/
theorem aligned_cases (policy : OddPolicy) (kind : Word → Word → Fault) (s : State) (a : Word) :
    (isEven a = true ∧ aligned policy kind s a = .next a) ∨
      (isEven a = false ∧ policy = .fault ∧ aligned policy kind s a = .fault (kind a s.pc)) ∨
        (isEven a = false ∧ policy = .ignoreBit0 ∧ aligned policy kind s a = .next (a &&& 0xFFFE#16)) := by
  unfold aligned raise
  cases isEven a <;> cases policy <;> simp

/-- An alignment check that passes gives an even address. -/
theorem aligned_even {policy : OddPolicy} {kind : Word → Word → Fault} {s : State} {a b : Word}
    (h : aligned policy kind s a = .next b) : isEven b = true := by
  rcases aligned_cases policy kind s a with ⟨he, hr⟩ | ⟨-, -, hr⟩ | ⟨-, -, hr⟩ <;> rw [hr] at h
  · cases h; exact he
  · cases h
  · cases h; exact clearBit0_even a

theorem targetAddress_settings_even (s : State) {a : Word} (h : isEven a = true) : targetAddress settings s a = .next a := by
  simp [targetAddress, aligned, h]

theorem targetAddress_settings_odd (s : State) {a : Word} (h : isEven a = false) :
    targetAddress settings s a = .fault (.misalignedTarget a s.pc) := by
  simp [targetAddress, aligned, raise, settings, h]

theorem dataAddress_settings_even (s : State) {a : Word} (h : isEven a = true) : dataAddress settings s a = .next a := by
  simp [dataAddress, aligned, h]

theorem dataAddress_settings_odd (s : State) {a : Word} (h : isEven a = false) :
    dataAddress settings s a = .fault (.misalignedData a s.pc) := by
  simp [dataAddress, aligned, raise, settings, h]

/-! ### Memory accesses (R54 to R56) -/

theorem implemented_settings (s : State) {a : Word} (h : isEven a = true) : implemented settings s a = .next a := by
  have h' : settings.memImplemented a = true := h
  simp [implemented, h']

/-- What a read of an even address answers under `settings`: the word, or the fault of a word that holds no value. -/
theorem readWord_settings (s : State) {a : Word} (h : isEven a = true) :
    readWord settings s a =
      match Memory.readWord s.mem a with
      | some v => .next v
      | none => .fault (.uninitialisedRead a s.pc) := by
  unfold readWord
  rw [implemented_settings s h, andThen_next]
  cases Memory.readWord s.mem a <;> rfl

theorem memRead_settings_even (s : State) {a : Word} (h : isEven a = true) : memRead settings s a = readWord settings s a := by
  simp [memRead, dataAddress_settings_even s h]

theorem memRead_settings_odd (s : State) {a : Word} (h : isEven a = false) :
    memRead settings s a = .fault (.misalignedData a s.pc) := by
  simp [memRead, dataAddress_settings_odd s h]

theorem memWrite_settings_even (s : State) {a : Word} (h : isEven a = true) (v : Word) :
    memWrite settings s a v = .next { s with mem := Memory.writeWord s.mem a v } := by
  simp [memWrite, dataAddress_settings_even s h, implemented_settings s h]

theorem memWrite_settings_odd (s : State) {a : Word} (h : isEven a = false) (v : Word) :
    memWrite settings s a v = .fault (.misalignedData a s.pc) := by
  simp [memWrite, dataAddress_settings_odd s h]

/-- A write that lands went to an even address and is that word's write. -/
theorem memWrite_next {c : Config} {s t : State} {a v : Word} (h : memWrite c s a v = .next t) :
    ∃ b, dataAddress c s a = .next b ∧ isEven b = true ∧ t = { s with mem := Memory.writeWord s.mem b v } := by
  unfold memWrite at h
  rw [andThen_eq_next] at h
  obtain ⟨b, hb, h⟩ := h
  rw [andThen_eq_next] at h
  obtain ⟨b', hb', h⟩ := h
  have : b' = b := by
    unfold implemented raise at hb'
    split at hb' <;> cases hb'
    rfl
  subst this
  cases h
  exact ⟨b', hb, aligned_even hb, rfl⟩

/-! ### Fetch (R56, R197) -/

/-- What a fetch answers under `settings`. -/
theorem fetch_settings (s : State) :
    fetch settings s =
      if isEven s.pc then
        match Memory.readWord s.mem s.pc with
        | some v => .next v
        | none => .fault (.uninitialisedRead s.pc s.pc)
      else .refused (.oddProgramCounter s.pc) := by
  unfold fetch
  split
  · rw [readWord_settings s (by assumption)]
  · rfl

/-- A step that answers a next state ran an instruction that decoded. -/
theorem step_next {s t : State} (h : step s = .next t) : ∃ i, fetchInstr settings s = .next i ∧ exec i s = .next t := by
  obtain ⟨i, hi, h⟩ := andThen_eq_next.mp h
  exact ⟨i, hi, by simpa using h⟩

/-! ### The end of a one-register instruction -/

theorem finish_next {r : Reg} {v : Word} {s t : State} (h : finish r v s = .next t) : t = (s.setReg r v).advance := by
  cases h; rfl

/-- Everything `finish` changes. -/
theorem finish_writesOnlyReg (r : Reg) (v : Word) (s : State) : WritesOnlyReg r v s (s.setReg r v).advance := by
  refine ⟨?_, fun q hq => ?_, fun a => ?_, by simp⟩
  · rw [getReg_advance, getReg_setReg]
    by_cases h : r = 0#4 <;> simp [h]
  · rw [getReg_advance, getReg_setReg_ne s hq]
  · simp [State.wordAt]

end Sys2Proof.Machine
end

