-- ==== Sys2Proof/Laws/AnyConfig.lean ====
section
/-! SUPPORT. The machine under any settings: under `settings` it is the modelled machine, and what the operations that read a
parameter answer under every setting. -/

namespace Sys2Proof.Machine

/-! ### Under `settings` it is the modelled machine -/

@[simp] theorem execWith_settings (i : Instr) (s : State) : execWith settings i s = exec i s := by cases i <;> rfl

@[simp] theorem stepWith_settings (s : State) : stepWith settings s = step s := by
  have : execWith settings = exec := by funext i s; simp
  simp only [stepWith, step, this]

/-- A step whose fetch answers an instruction runs it, in its delay slot if it is in one. -/
theorem stepWith_fetched {c : Config} {s : State} {i : Instr} (h : fetchInstr c s = .next i) :
    stepWith c s = runDecoded c (execWith c i) s := by
  simp [stepWith, h]

/-! ### Memory (R54 to R56, R195) -/

theorem implemented_present {c : Config} {a : Word} (h : c.memImplemented a = true) (s : State) :
    implemented c s a = .next a := by
  simp [implemented, h]

theorem implemented_absent {c : Config} {a : Word} (h : c.memImplemented a = false) (s : State) :
    implemented c s a = .fault (.unimplementedMemory a s.pc) := by
  simp [implemented, raise, h]

/-- A data address that passes its check is the address with bit 0 cleared, an even one itself. -/
theorem dataAddress_next {c : Config} {s : State} {a : Word} (h : isEven a = true ∨ c.misalignedData = .ignoreBit0) :
    dataAddress c s a = .next (a &&& 0xFFFE#16) := by
  unfold dataAddress
  rcases aligned_cases c.misalignedData .misalignedData s a with ⟨he, hr⟩ | ⟨he, hp, -⟩ | ⟨-, -, hr⟩
  · rw [hr, clearBit0_of_even he]
  · simp [he, hp] at h
  · exact hr

/-! ### Transfers (R120, R124) -/

theorem targetAddress_even (c : Config) (s : State) {a : Word} (h : isEven a = true) : targetAddress c s a = .next a := by
  simp [targetAddress, aligned, h]

theorem targetAddress_odd_fault {c : Config} (hc : c.misalignedTarget = .fault) (s : State) {a : Word} (h : isEven a = false) :
    targetAddress c s a = .fault (.misalignedTarget a s.pc) := by
  simp [targetAddress, aligned, raise, hc, h]

/-- Under `MISALIGNED_TARGET = ignore bit 0` every target passes, its bit 0 cleared. -/
theorem targetAddress_ignoreBit0 {c : Config} (hc : c.misalignedTarget = .ignoreBit0) (s : State) (a : Word) :
    targetAddress c s a = .next (a &&& 0xFFFE#16) := by
  cases h : isEven a
  · simp [targetAddress, aligned, hc, h]
  · simp [targetAddress, aligned, h, clearBit0_of_even h]

/-- A transfer changes the pc and the target that waits, and nothing else, under every setting. -/
theorem transfer_frame (c : Config) (s : State) (t : Word) : (s.transfer c t).regs = s.regs ∧ (s.transfer c t).mem = s.mem := by
  unfold State.transfer; split <;> exact ⟨rfl, rfl⟩

@[simp] theorem getReg_transfer (c : Config) (s : State) (t : Word) (r : Reg) : (s.transfer c t).getReg r = s.getReg r := by
  unfold State.transfer; split <;> rfl

/-! ### Delay slots (R124; log 4, 22) -/

/-- An instruction that is in no delay slot just runs. -/
theorem runDecoded_none (c : Config) (run : State → Result State) {s : State} (h : s.delayed = none) :
    runDecoded c run s = run s := by
  unfold runDecoded; rw [h]; cases c.delaySlot <;> rfl

/-- An instruction in a delay slot runs, and the target that waited is its successor. -/
theorem runDecoded_slot {c : Config} (hc : c.delaySlot = true) (run : State → Result State) {s : State} {d : Word}
    (h : s.delayed = some d) :
    runDecoded c run s = andThen (run { s with delayed := none }) fun t => .next { t with pc := d } := by
  unfold runDecoded; rw [hc, h]

end Sys2Proof.Machine
end

