-- ==== Sys2Proof/Laws/Decode.lean ====
section
/-! SUPPORT. The fields of an encoded word, and what the parts of the decoder answer. -/

namespace Sys2Proof

@[simp] theorem opField_encodeR (op : Opcode) (rs rt rd : Reg) : opField (encodeR op rs rt rd) = op.bits := by
  apply BitVec.eq_of_getLsbD_eq; intro i hi
  simp only [opField, encodeR, BitVec.getLsbD_extractLsb', BitVec.getLsbD_append]
  grind

@[simp] theorem rsField_encodeR (op : Opcode) (rs rt rd : Reg) : rsField (encodeR op rs rt rd) = rs := by
  apply BitVec.eq_of_getLsbD_eq; intro i hi
  simp only [rsField, encodeR, BitVec.getLsbD_extractLsb', BitVec.getLsbD_append]
  grind

@[simp] theorem rtField_encodeR (op : Opcode) (rs rt rd : Reg) : rtField (encodeR op rs rt rd) = rt := by
  apply BitVec.eq_of_getLsbD_eq; intro i hi
  simp only [rtField, encodeR, BitVec.getLsbD_extractLsb', BitVec.getLsbD_append]
  grind

@[simp] theorem rdField_encodeR (op : Opcode) (rs rt rd : Reg) : rdField (encodeR op rs rt rd) = rd := by
  apply BitVec.eq_of_getLsbD_eq; intro i hi
  simp only [rdField, encodeR, BitVec.getLsbD_extractLsb', BitVec.getLsbD_append]
  grind

@[simp] theorem opField_encodeI (op : Opcode) (rs : Reg) (imm : Byte) : opField (encodeI op rs imm) = op.bits := by
  apply BitVec.eq_of_getLsbD_eq; intro i hi
  simp only [opField, encodeI, BitVec.getLsbD_extractLsb', BitVec.getLsbD_append]
  grind

@[simp] theorem rsField_encodeI (op : Opcode) (rs : Reg) (imm : Byte) : rsField (encodeI op rs imm) = rs := by
  apply BitVec.eq_of_getLsbD_eq; intro i hi
  simp only [rsField, encodeI, BitVec.getLsbD_extractLsb', BitVec.getLsbD_append]
  grind

@[simp] theorem immField_encodeI (op : Opcode) (rs : Reg) (imm : Byte) : immField (encodeI op rs imm) = imm := by
  apply BitVec.eq_of_getLsbD_eq; intro i hi
  simp only [immField, encodeI, BitVec.getLsbD_extractLsb', BitVec.getLsbD_append]
  grind

/-- A word is its fields (R80). -/
theorem word_of_fields (w : Word) : opField w ++ rsField w ++ rtField w ++ rdField w = w := by
  apply BitVec.eq_of_getLsbD_eq; intro i hi
  simp only [opField, rsField, rtField, rdField, BitVec.getLsbD_append, BitVec.getLsbD_extractLsb']
  grind

/-- A word is its fields (R81). -/
theorem word_of_fieldsI (w : Word) : opField w ++ rsField w ++ immField w = w := by
  apply BitVec.eq_of_getLsbD_eq; intro i hi
  simp only [opField, rsField, immField, BitVec.getLsbD_append, BitVec.getLsbD_extractLsb']
  grind

/-- The fields of a word as numbers. -/
theorem toNat_fields (w : Word) :
    (rsField w).toNat = w.toNat / 0x100 % 16 ∧ (rtField w).toNat = w.toNat / 0x10 % 16 ∧ (rdField w).toNat = w.toNat % 16 ∧
      (opField w).toNat = w.toNat / 0x1000 := by
  have := w.isLt
  simp [rsField, rtField, rdField, opField, Nat.shiftRight_eq_div_pow]
  omega

/-- The opcode map inverts `Opcode.bits` (R84). -/
theorem opcode_at_bits (op : Opcode) : opcodes[op.bits.toNat]'op.bits.isLt = op := by cases op <;> rfl

theorem bits_of_opcode_at : ∀ b : BitVec 4, (opcodes[b.toNat]'b.isLt).bits = b := by decide

theorem opcodeOf_of_opField {w : Word} {op : Opcode} (h : opField w = op.bits) : opcodeOf w = op := by
  simp only [opcodeOf, h]; exact opcode_at_bits op

theorem opField_of_opcodeOf (w : Word) : opField w = (opcodeOf w).bits := (bits_of_opcode_at (opField w)).symm

@[simp] theorem opcodeOf_encodeR (op : Opcode) (rs rt rd : Reg) : opcodeOf (encodeR op rs rt rd) = op :=
  opcodeOf_of_opField (opField_encodeR op rs rt rd)

@[simp] theorem opcodeOf_encodeI (op : Opcode) (rs : Reg) (imm : Byte) : opcodeOf (encodeI op rs imm) = op :=
  opcodeOf_of_opField (opField_encodeI op rs imm)

/-- What the should-be-zero check answers, said once. -/
theorem checkSbz_cases (c : Config) (w : Word) (z : Bool) (i : Instr) :
    (checkSbz c w z i = .ok i ∧ (z = true ∨ c.sbzNonzero = .ignore)) ∨
      (checkSbz c w z i = .error (.reservedEncoding w) ∧ z = false ∧ c.sbzNonzero = .fault) := by
  unfold checkSbz
  cases z <;> cases c.sbzNonzero <;> simp

/-- The should-be-zero fields of `jr` and `jrl` are zero exactly when bits 11:4 are. -/
theorem jumpSbz_eq (w : Word) : (rsField w == 0#4 && rtField w == 0#4) = decide (w.toNat / 0x10 % 0x100 = 0) := by
  obtain ⟨h1, h2, -, -⟩ := toNat_fields w
  rw [Bool.eq_iff_iff]
  simp only [Bool.and_eq_true, beq_iff_eq, ← BitVec.toNat_inj, h1, h2, decide_eq_true_eq, BitVec.toNat_ofNat]
  omega

/-- The should-be-zero field of `lw` and `sw` is zero exactly when bits 3:0 are. -/
theorem memSbz_eq (w : Word) : (rdField w == 0#4) = decide (w.toNat % 0x10 = 0) := by
  obtain ⟨-, -, h3, -⟩ := toNat_fields w
  rw [Bool.eq_iff_iff]
  simp only [beq_iff_eq, ← BitVec.toNat_inj, h3, decide_eq_true_eq, BitVec.toNat_ofNat]

@[simp] theorem checkSbz_true (c : Config) (w : Word) (i : Instr) : checkSbz c w true i = .ok i := by
  simp [checkSbz]

end Sys2Proof
end

