-- ==== Sys2Proof/Laws/Exec.lean ====
section
/-! SUPPORT. What each instruction can do, said once: the invariants and frames are derived from `exec_cases`. -/

namespace Sys2Proof.Machine

theorem execLw_next {rs rt : Reg} {s t : State} (h : execLw rs rt s = .next t) :
    ∃ v, memRead settings s (s.getReg rt) = .next v ∧ t = (s.setReg rs v).advance := by
  unfold execLw lwUnder at h
  rw [andThen_eq_next] at h
  obtain ⟨v, hv, h⟩ := h
  exact ⟨v, hv, finish_next h⟩

theorem execSw_next {rs rt : Reg} {s t : State} (h : execSw rs rt s = .next t) :
    ∃ a, dataAddress settings s (s.getReg rt) = .next a ∧ isEven a = true ∧
      t = ({ s with mem := Memory.writeWord s.mem a (s.getReg rs) } : State).advance := by
  unfold execSw swUnder at h
  rw [andThen_eq_next] at h
  obtain ⟨u, hu, h⟩ := h
  obtain ⟨a, ha, he, rfl⟩ := memWrite_next hu
  cases h
  exact ⟨a, ha, he, rfl⟩

theorem execBeq_next {rs rt rd : Reg} {s t : State} (h : execBeq rs rt rd s = .next t) :
    ∃ a, targetAddress settings s (s.getReg rd) = .next a ∧ isEven a = true ∧
      t = if wordsEqual (s.getReg rs) (s.getReg rt) then { s with pc := a } else s.advance := by
  unfold execBeq beqUnder at h
  rw [andThen_eq_next] at h
  obtain ⟨a, ha, h⟩ := h
  cases h
  exact ⟨a, ha, aligned_even ha, rfl⟩

theorem execJr_next {rd : Reg} {s t : State} (h : execJr rd s = .next t) :
    ∃ a, targetAddress settings s (s.getReg rd) = .next a ∧ isEven a = true ∧ t = { s with pc := a } := by
  unfold execJr jrUnder at h
  rw [andThen_eq_next] at h
  obtain ⟨a, ha, h⟩ := h
  cases h
  exact ⟨a, ha, aligned_even ha, rfl⟩

theorem execJrl_next {rd : Reg} {s t : State} (h : execJrl rd s = .next t) :
    ∃ a, targetAddress settings s (s.getReg rd) = .next a ∧ isEven a = true ∧
      t = { s.setReg Reg.ra (s.pc + 2#16) with pc := a } := by
  unfold execJrl jrlUnder at h
  rw [andThen_eq_next] at h
  obtain ⟨a, ha, h⟩ := h
  cases h
  exact ⟨a, ha, aligned_even ha, rfl⟩

/-- Everything an instruction can do when it completes: write its destination and advance; go to an even target; go to an
even target with the link in `$ra`; advance alone; or store a word at an even address and advance. -/
theorem exec_cases {i : Instr} {s t : State} (h : exec i s = .next t) :
    (∃ d v, destOf i = some d ∧ i.opcode ≠ .jrl ∧ i.opcode ≠ .sw ∧ t = (s.setReg d v).advance) ∨
    (∃ a, isEven a = true ∧ destOf i = none ∧ (i.opcode = .beq ∨ i.opcode = .jr) ∧ t = { s with pc := a }) ∨
    (∃ a, isEven a = true ∧ destOf i = some Reg.ra ∧ i.opcode = .jrl ∧ t = { s.setReg Reg.ra (s.pc + 2#16) with pc := a }) ∨
    (destOf i = none ∧ i.opcode = .beq ∧ t = s.advance) ∨
    (∃ a v, isEven a = true ∧ destOf i = none ∧ i.opcode = .sw ∧
      t = ({ s with mem := Memory.writeWord s.mem a v } : State).advance) := by
  cases i with
  | beq rs rt rd =>
    obtain ⟨a, -, he, rfl⟩ := execBeq_next h
    split
    · exact .inr (.inl ⟨a, he, rfl, .inl rfl, rfl⟩)
    · exact .inr (.inr (.inr (.inl ⟨rfl, rfl, rfl⟩)))
  | jr rd =>
    obtain ⟨a, -, he, rfl⟩ := execJr_next h
    exact .inr (.inl ⟨a, he, rfl, .inr rfl, rfl⟩)
  | jrl rd =>
    obtain ⟨a, -, he, rfl⟩ := execJrl_next h
    exact .inr (.inr (.inl ⟨a, he, rfl, rfl, rfl⟩))
  | lw rs rt =>
    obtain ⟨v, -, rfl⟩ := execLw_next h
    exact .inl ⟨rs, v, rfl, by simp [Instr.opcode], by simp [Instr.opcode], rfl⟩
  | sw rs rt =>
    obtain ⟨a, -, he, rfl⟩ := execSw_next h
    exact .inr (.inr (.inr (.inr ⟨a, _, he, rfl, rfl, rfl⟩)))
  | add | and | lui | bsr | nor | or | ori | sll | slt | xor | srl =>
    exact .inl ⟨_, _, rfl, by simp [Instr.opcode], by simp [Instr.opcode], finish_next h⟩

/-! ### What each instruction that can fault answers under `settings` -/

theorem execLw_settings (rs rt : Reg) (s : State) :
    execLw rs rt s =
      if isEven (s.getReg rt) then
        match Memory.readWord s.mem (s.getReg rt) with
        | some v => .next (s.setReg rs v).advance
        | none => .fault (.uninitialisedRead (s.getReg rt) s.pc)
      else .fault (.misalignedData (s.getReg rt) s.pc) := by
  unfold execLw lwUnder effectiveAddress
  cases h : isEven (s.getReg rt)
  · simp [memRead_settings_odd s h]
  · rw [memRead_settings_even s h, readWord_settings s h]
    cases Memory.readWord s.mem (s.getReg rt) <;> rfl

theorem execSw_settings (rs rt : Reg) (s : State) :
    execSw rs rt s =
      if isEven (s.getReg rt) then
        .next ({ s with mem := Memory.writeWord s.mem (s.getReg rt) (s.getReg rs) } : State).advance
      else .fault (.misalignedData (s.getReg rt) s.pc) := by
  unfold execSw swUnder effectiveAddress
  cases h : isEven (s.getReg rt)
  · simp [memWrite_settings_odd s h]
  · simp [memWrite_settings_even s h]

theorem execBeq_settings (rs rt rd : Reg) (s : State) :
    execBeq rs rt rd s =
      if isEven (s.getReg rd) then
        .next (if s.getReg rs = s.getReg rt then { s with pc := s.getReg rd } else s.advance)
      else .fault (.misalignedTarget (s.getReg rd) s.pc) := by
  unfold execBeq beqUnder
  cases h : isEven (s.getReg rd)
  · simp [targetAddress_settings_odd s h]
  · simp [targetAddress_settings_even s h, wordsEqual]

theorem execJr_settings (rd : Reg) (s : State) :
    execJr rd s = if isEven (s.getReg rd) then .next { s with pc := s.getReg rd }
      else .fault (.misalignedTarget (s.getReg rd) s.pc) := by
  unfold execJr jrUnder
  cases h : isEven (s.getReg rd)
  · simp [targetAddress_settings_odd s h]
  · simp [targetAddress_settings_even s h]

theorem execJrl_settings (rd : Reg) (s : State) :
    execJrl rd s =
      if isEven (s.getReg rd) then .next { s.setReg Reg.ra (s.pc + 2#16) with pc := s.getReg rd }
      else .fault (.misalignedTarget (s.getReg rd) s.pc) := by
  unfold execJrl jrlUnder
  cases h : isEven (s.getReg rd)
  · simp [targetAddress_settings_odd s h]
  · simp [targetAddress_settings_even s h]

/-- The signed value of a word is its two's-complement integer (R9, R10). -/
theorem signed_eq_toInt (v : Word) : signed v = v.toInt := by
  unfold signed
  rw [BitVec.toInt_eq_msb_cond, BitVec.msb_eq_getLsbD_last]
  rfl

/-- The shift amount is the number of `x[rs]` modulo 16 (R153). -/
theorem shiftAmount_eq_mod (v : Word) : shiftAmount v = v.toNat % 16 := by
  simp [shiftAmount]

/-- `lui`'s operand as a number (R130). -/
theorem upperImmediate_toNat (imm : Byte) : (upperImmediate imm).toNat = imm.toNat * 256 := by
  show ((imm ++ 0#8 : BitVec (8 + 8))).toNat = _
  rw [BitVec.toNat_append]; simp [Nat.shiftLeft_eq]

/-- `ori`'s operand as a number (R131). -/
theorem zeroExtended_toNat (imm : Byte) : (zeroExtended imm).toNat = imm.toNat := by
  show ((0#8 ++ imm : BitVec (8 + 8))).toNat = _
  rw [BitVec.toNat_append]; simp

/-- The model's rotate is the library's. -/
theorem ror16_eq_rotateRight (v : Word) {n : Nat} (h : n < 16) : ror16 v n = v.rotateRight n := by
  simp [ror16, BitVec.rotateRight, BitVec.rotateRightAux, Nat.mod_eq_of_lt h]

end Sys2Proof.Machine
end

