-- ==== Sys2Proof/Laws/PerInstr.lean ====
section
/-! SUPPORT. Statements made of every instruction as syntax, one lemma per constructor: an instruction's word carries its
opcode in bits 15:12 (30_encoding.md R83, R84). -/

namespace Sys2Proof.Laws

/-- Bits 15:12 of the word of `i` select its opcode, and are that opcode's bits. -/
def EncodesOpcode.Statement (i : Instr) : Prop := opcodeOf (encode i) = i.opcode ∧ opField (encode i) = i.opcode.bits

theorem EncodesOpcode.add (rs rt rd : Reg) : EncodesOpcode.Statement (.add rs rt rd) := by simp [Statement, encode, Instr.opcode]
theorem EncodesOpcode.and (rs rt rd : Reg) : EncodesOpcode.Statement (.and rs rt rd) := by simp [Statement, encode, Instr.opcode]
theorem EncodesOpcode.beq (rs rt rd : Reg) : EncodesOpcode.Statement (.beq rs rt rd) := by simp [Statement, encode, Instr.opcode]
theorem EncodesOpcode.jr (rd : Reg) : EncodesOpcode.Statement (.jr rd) := by simp [Statement, encode, Instr.opcode]
theorem EncodesOpcode.jrl (rd : Reg) : EncodesOpcode.Statement (.jrl rd) := by simp [Statement, encode, Instr.opcode]
theorem EncodesOpcode.lui (rs : Reg) (imm : Byte) : EncodesOpcode.Statement (.lui rs imm) := by simp [Statement, encode, Instr.opcode]
theorem EncodesOpcode.lw (rs rt : Reg) : EncodesOpcode.Statement (.lw rs rt) := by simp [Statement, encode, Instr.opcode]
theorem EncodesOpcode.bsr (rs rt rd : Reg) : EncodesOpcode.Statement (.bsr rs rt rd) := by simp [Statement, encode, Instr.opcode]
theorem EncodesOpcode.nor (rs rt rd : Reg) : EncodesOpcode.Statement (.nor rs rt rd) := by simp [Statement, encode, Instr.opcode]
theorem EncodesOpcode.or (rs rt rd : Reg) : EncodesOpcode.Statement (.or rs rt rd) := by simp [Statement, encode, Instr.opcode]
theorem EncodesOpcode.ori (rs : Reg) (imm : Byte) : EncodesOpcode.Statement (.ori rs imm) := by simp [Statement, encode, Instr.opcode]
theorem EncodesOpcode.sll (rs rt rd : Reg) : EncodesOpcode.Statement (.sll rs rt rd) := by simp [Statement, encode, Instr.opcode]
theorem EncodesOpcode.slt (rs rt rd : Reg) : EncodesOpcode.Statement (.slt rs rt rd) := by simp [Statement, encode, Instr.opcode]
theorem EncodesOpcode.xor (rs rt rd : Reg) : EncodesOpcode.Statement (.xor rs rt rd) := by simp [Statement, encode, Instr.opcode]
theorem EncodesOpcode.srl (rs rt rd : Reg) : EncodesOpcode.Statement (.srl rs rt rd) := by simp [Statement, encode, Instr.opcode]
theorem EncodesOpcode.sw (rs rt : Reg) : EncodesOpcode.Statement (.sw rs rt) := by simp [Statement, encode, Instr.opcode]

end Sys2Proof.Laws
end

