-- ==== Sys2Proof/Tests/Slice0.lean ====
section
/-! SUPPORT. Tests of the model and witnesses for the statements. Expected values are the spec's own (95_test_vectors.md,
named by part and row) or worked out by hand from the rule a test cites; none is the model's answer pasted back. -/

namespace Sys2Proof.Tests

open Sys2Proof.Machine

/-! ### Helpers -/

/-- A state at `pc` with the word `w` there, some registers and some words of memory set, all else as after reset. -/
def stateWith (pc w : Word) (regs : List (Reg × Word)) (mem : List (Word × Word)) : State :=
  regs.foldl (fun s p => s.setReg p.1 p.2)
    { State.reset with pc := pc, mem := Memory.load [] ((pc, w) :: mem) }

/-- What to look at in the next state, if there is one. -/
def after {α : Type} (r : Result State) (look : State → α) : Option α :=
  match r with
  | .next t => some (look t)
  | .fault _ | .refused _ => none

def faultOf {α : Type} : Result α → Option Fault
  | .fault f => some f
  | .next _ | .refused _ => none

def reg (r : Reg) (s : State) : Word := s.getReg r
def pc (s : State) : Word := s.pc
def word (a : Word) (s : State) : Option Word := s.wordAt a

/-- The CPU at cycle 2 with the architectural state `s`. -/
def cpuAt (s : State) : Cpu where
  arch := s
  cycle := .c2
  ir := 0
  signals := ⟨false, .pc, false, false, .alu, .no, false, .regfile, .add, false, false, false⟩
  memUnit := .memReady4Next
  memOut := 0

/-! ### Decoding: words of Part B and of the rows of R84, written out bit by bit -/

theorem test_decode_arith_logic :
    decode settings 0b0000011000000110 = .ok (.add 6 0 6) ∧ decode settings 0b0001010101100111 = .ok (.and 5 6 7) ∧
    decode settings 0b1000000000000111 = .ok (.nor 0 0 7) ∧ decode settings 0b1001010100000111 = .ok (.or 5 0 7) ∧
    decode settings 0b1101010101100101 = .ok (.xor 5 6 5) ∧ decode settings 0b1100000100100011 = .ok (.slt 1 2 3) := by
  decide

theorem test_decode_shifts :
    decode settings 0b0111000100100011 = .ok (.bsr 1 2 3) ∧ decode settings 0b1011000000100011 = .ok (.sll 0 2 3) ∧
    decode settings 0b1110000100010001 = .ok (.srl 1 1 1) := by decide

theorem test_decode_immediates :
    decode settings 0b0101000011111111 = .ok (.lui 0 0xFF) ∧ decode settings 0b1010010110000000 = .ok (.ori 5 0x80) := by
  decide

theorem test_decode_memory :
    decode settings 0b0110000100100000 = .ok (.lw 1 2) ∧ decode settings 0b1111000100100000 = .ok (.sw 1 2) := by decide

theorem test_decode_control :
    decode settings 0b0010000100101011 = .ok (.beq 1 2 11) ∧ decode settings 0b0011000000001011 = .ok (.jr 11) ∧
    decode settings 0b0100000000001111 = .ok (.jrl 15) := by decide

/-- Part B, the reserved rows (R87). -/
theorem test_decode_reserved :
    decode settings 0x3010 = .error (.reservedEncoding 0x3010) ∧ decode settings 0x4FF0 = .error (.reservedEncoding 0x4FF0) ∧
    decode settings 0x6121 = .error (.reservedEncoding 0x6121) ∧ decode settings 0xFFFF = .error (.reservedEncoding 0xFFFF) := by
  decide

theorem test_decode_too_short : decodeBytes .big settings [0x01] = .error .truncated := by decide

/-- The words the assembler emits (Part C7: `push $s0`'s last word and `jmp`'s; the label example of A4). -/
theorem test_encode : encode (.sw 1 12) = 0xF1C0 ∧ encode (.jr 11) = 0x300B ∧ encode (.add 6 0 6) = 0x0606 := by decide

theorem test_decodeTableWord :
    decodeTableWord 16 0x7123 = some (.bsr 1 2 3) ∧ decodeTableWord 16 0x6121 = none ∧ decodeTableWord 8 0x55 = some (.add 0 5 5) := by
  decide

theorem test_withFetchWord : after (step (State.reset.withFetchWord 16 0x5512)) (reg 5) = some 0x1200 := by decide

/-! ### Well-formedness: each check refuses an ill-formed term -/

theorem test_wf_accepts : (Stmt.mk (.hw .add) [.reg 1, .reg 2, .reg 3]).wf = true := by decide
theorem test_wf_too_few_operands : (Stmt.mk (.hw .add) [.reg 1, .reg 2]).wf = false := by decide
theorem test_wf_too_many_operands : (Stmt.mk (.hw .jr) [.reg 1, .reg 2]).wf = false := by decide
theorem test_wf_wrong_kind : (Stmt.mk (.hw .lw) [.reg 1, .imm 2]).wf = false := by decide
theorem test_wf_imm8_range :
    (Stmt.mk (.hw .lui) [.reg 1, .imm 0xFF]).wf = true ∧ (Stmt.mk (.hw .lui) [.reg 1, .imm 0x100]).wf = false := by decide
theorem test_wf_imm8_no_label : (Stmt.mk (.hw .ori) [.reg 1, .label ['L']]).wf = false := by decide
theorem test_wf_imm16_range :
    (Stmt.mk (.ps .li) [.reg 1, .imm 0xFFFF]).wf = true ∧ (Stmt.mk (.ps .li) [.reg 1, .imm 0x10000]).wf = false := by decide
theorem test_wf_label_only : (Stmt.mk (.ps .jmp) [.imm 0x100]).wf = false := by decide
theorem test_wf_shamt_range :
    (Stmt.mk (.ps .slli) [.imm 0xF, .reg 1, .reg 2]).wf = true ∧
      (Stmt.mk (.ps .slli) [.imm 0x10, .reg 1, .reg 2]).wf = false := by decide
theorem test_wf_sub_same_rt_rd :
    (Stmt.mk (.ps .sub) [.reg 1, .reg 2, .reg 2]).wf = false ∧ (Stmt.mk (.ps .sub) [.reg 1, .reg 2, .reg 1]).wf = true := by
  decide
theorem test_wf_launch_odd_pc : ({ settings with resetPc := 0x0101 } : Config).launchable = false := by decide
theorem test_wf_launch_absent_pc :
    ({ settings with memImplemented := fun a => a.toNat < 0x8000, resetPc := 0x8000 } : Config).launchable = false := by decide
/-- The model's choice (log 25). -/
theorem test_wf_launch_odd_image : imageOk settings [(0x0001, 0x0000)] = false := by decide
theorem test_wf_launch_absent_image :
    imageOk { settings with memImplemented := fun a => a.toNat < 0x8000 } [(0x8000, 0x0000)] = false := by decide

/-! ### One step of each instruction (Part C) -/

/-- C1: the carry out is lost. -/
theorem test_add_wraps : after (step (stateWith 0x100 0x0123 [(1, 0xFFFF), (2, 0x0001)] [])) (reg 3) = some 0x0000 := by decide
/-- C1: the same register three times. -/
theorem test_add_same : after (step (stateWith 0x100 0x0111 [(1, 0x4000)] [])) (reg 1) = some 0x8000 := by decide
theorem test_and : after (step (stateWith 0x100 0x1567 [(5, 0xF0F0), (6, 0x3C3C)] [])) (reg 7) = some 0x3030 := by decide
theorem test_or : after (step (stateWith 0x100 0x9567 [(5, 0xF0F0), (6, 0x3C3C)] [])) (reg 7) = some 0xFCFC := by decide
theorem test_nor : after (step (stateWith 0x100 0x8567 [(5, 0xF0F0), (6, 0x3C3C)] [])) (reg 7) = some 0x0303 := by decide
theorem test_xor_dest_is_source : after (step (stateWith 0x100 0xD565 [(5, 0xFFFF), (6, 0x00FF)] [])) (reg 5) = some 0xFF00 := by
  decide
/-- C1: the row that would show a sign-of-difference comparison (D8). -/
theorem test_slt_exact : after (step (stateWith 0x100 0xC123 [(1, 0x8000), (2, 0x0001)] [])) (reg 3) = some 0x0001 := by decide
theorem test_slt_false : after (step (stateWith 0x100 0xC123 [(1, 0x0000), (2, 0xFFFF), (3, 0xAAAA)] [])) (reg 3) = some 0x0000 := by
  decide
/-- C2: the upper 12 bits of the amount are ignored. -/
theorem test_sll : after (step (stateWith 0x100 0xB123 [(1, 0xFFF3), (2, 0x00FF)] [])) (reg 3) = some 0x07F8 := by decide
theorem test_srl_logical : after (step (stateWith 0x100 0xE123 [(1, 0x0001), (2, 0x8001)] [])) (reg 3) = some 0x4000 := by decide
theorem test_srl_width : after (step (stateWith 0x100 0xE123 [(1, 0x0010), (2, 0x1234)] [])) (reg 3) = some 0x1234 := by decide
theorem test_bsr : after (step (stateWith 0x100 0x7123 [(1, 0x0014), (2, 0xABCD)] [])) (reg 3) = some 0xDABC := by decide
theorem test_bsr_zero : after (step (stateWith 0x100 0x7123 [(1, 0x0000), (2, 0x1234)] [])) (reg 3) = some 0x1234 := by decide
theorem test_lui : after (step (stateWith 0x100 0x5512 [(5, 0xFFFF)] [])) (reg 5) = some 0x1200 := by decide
theorem test_ori_zero_extends : after (step (stateWith 0x100 0xA580 [(5, 0x0000)] [])) (reg 5) = some 0x0080 := by decide
theorem test_ori_keeps_high : after (step (stateWith 0x100 0xA5FF [(5, 0xABCD)] [])) (reg 5) = some 0xABFF := by decide
/-- C4: address register = destination. -/
theorem test_lw_chase : after (step (stateWith 0x100 0x6110 [(1, 0x0200)] [(0x0200, 0x0202)])) (reg 1) = some 0x0202 := by decide
/-- C4: the highest word. -/
theorem test_lw_top : after (step (stateWith 0x100 0x6120 [(2, 0xFFFE)] [(0xFFFE, 0x0001)])) (reg 1) = some 0x0001 := by decide
theorem test_sw : after (step (stateWith 0x100 0xF120 [(1, 0x1234), (2, 0x0200)] [(0x0200, 0xFFFF)])) (word 0x0200) = some (some 0x1234) := by
  decide
/-- C4: store over itself; the current execution is unaffected. -/
theorem test_sw_self :
    after (step (stateWith 0x100 0xF120 [(1, 0x300F), (2, 0x0100)] [])) (fun t => (word 0x0100 t, pc t)) =
      some (some 0x300F, 0x0102) := by decide
theorem test_beq_taken : after (step (stateWith 0x10 0x212B [(1, 5), (2, 5), (11, 0x0040)] [])) pc = some 0x0040 := by decide
/-- C5: not taken at the top of memory: the pc wraps. -/
theorem test_beq_not_taken_wraps : after (step (stateWith 0xFFFE 0x212B [(1, 1), (2, 2), (11, 0x0040)] [])) pc = some 0x0000 := by
  decide
theorem test_jr : after (step (stateWith 0x200 0x300F [(15, 0x0124)] [])) pc = some 0x0124 := by decide
/-- C5: jumps to the old `$ra`, then overwrites it. -/
theorem test_jrl_ra :
    after (step (stateWith 0x20 0x400F [(15, 0x0300)] [])) (fun t => (pc t, reg 15 t)) = some (0x0300, 0x0022) := by decide
theorem test_jrl_link_wraps : after (step (stateWith 0xFFFE 0x400B [(11, 0x0100)] [])) (reg 15) = some 0x0000 := by decide
/-- C1, C3: a write to `$0` is discarded. -/
theorem test_zero_discarded :
    after (step (stateWith 0x100 0x0120 [(1, 1), (2, 2)] [])) (reg 0) = some 0 ∧
      after (step (stateWith 0x100 0x50FF [] [])) (reg 0) = some 0 := by decide

/-! ### Faults (C4 to C6) -/

theorem test_fault_misaligned_data : faultOf (step (stateWith 0x100 0x6120 [(2, 0x0201)] [])) = some (.misalignedData 0x0201 0x100) := by
  decide
theorem test_fault_misaligned_target : faultOf (step (stateWith 0x200 0x300B [(11, 0x0125)] [])) = some (.misalignedTarget 0x0125 0x200) := by
  decide
/-- C5: not taken, checked all the same (D22). -/
theorem test_fault_beq_not_taken :
    faultOf (step (stateWith 0x10 0x212B [(1, 5), (2, 6), (11, 0x0041)] [])) = some (.misalignedTarget 0x0041 0x10) := by decide
/-- C6: decode is checked before the address (R197). -/
theorem test_fault_order : faultOf (step (stateWith 0x100 0x6121 [(2, 0x0201)] [])) = some (.reservedEncoding 0x6121 0x100) := by
  decide
theorem test_fault_uninitialised : faultOf (step (stateWith 0x100 0x6120 [(2, 0x0200)] [])) = some (.uninitialisedRead 0x0200 0x100) := by
  decide
/-- C6: `sw` outside `MEM_IMPLEMENTED`, under a setting that has an outside. -/
theorem test_fault_unimplemented :
    faultOf (memWrite { settings with memImplemented := fun a => a.toNat < 0x8000 } State.reset 0x8000 0x0001) =
      some (.unimplementedMemory 0x8000 0x0000) := by decide

/-! ### Other settings of the parameters -/

/-- C5, under the reading the spec rejects (`DELAY_SLOT = true`, `LINK_OFFSET = 4`): the first `jrl` row leaves 0x0024 in `$ra`
and executes the word at 0x0022 before the one at 0x0100. -/
theorem test_delay_slot :
    let c : Config := { settings with delaySlot := true, linkOffset := .four }
    let s := stateWith 0x20 0x400B [(11, 0x0100)] [(0x0022, 0x5512)]
    after (stepWith c s) (fun t => (pc t, reg 15 t)) = some (0x0022, 0x0024) ∧
      after (runWith c 2 s) (fun t => (pc t, reg 5 t)) = some (0x0100, 0x1200) := by decide

/-- R6, R114: another `SLT_FALSE_VALUE`. -/
theorem test_slt_false_value :
    after (stepWith { settings with sltFalseValue := 0x8000 } (stateWith 0x100 0xC123 [(1, 7), (2, 7)] [])) (reg 3) = some 0x8000 := by
  decide

/-- R120's other setting: an odd target is used with bit 0 cleared, by the instruction and by the CPU's cycles. -/
theorem test_ignore_odd_target :
    let c : Config := { settings with misalignedTarget := .ignoreBit0 }
    let s := stateWith 0x200 0x300B [(11, 0x0125)] []
    after (stepWith c s) pc = some 0x0124 ∧
      (match Cpu.clocks c 7 (cpuAt s) with
        | .next v => some (pc v.arch)
        | _ => none) = some 0x0124 := by decide

/-- R50: a byte-wise image becomes words by `BYTE_ORDER`, and not while that is open. -/
theorem test_byte_image :
    imageOfBytes settings 0x0200 [0x12, 0x34] = .error .byteOrderOpen ∧
    imageOfBytes { settings with byteOrder := some .big } 0x0200 [0x12, 0x34] = .ok [(0x0200, 0x1234)] ∧
    imageOfBytes { settings with byteOrder := some .little } 0x0200 [0x12, 0x34] = .ok [(0x0200, 0x3412)] ∧
    imageOfBytes { settings with byteOrder := some .big } 0x0201 [0x12, 0x34] = .error .oddBase ∧
    imageOfBytes { settings with byteOrder := some .big } 0x0200 [0x12] = .error .oddLength := by decide

/-! ### The assembler and the expansions (A4, C7) -/

/-- A4 (2): `call` with its label at 0x0040. -/
theorem test_call_words :
    (Pseudo.call 0x0040).expand.map encode =
      [0x5B00, 0xAB40, 0x5EFF, 0xAEFE, 0x0CEC, 0xFFC0, 0x400B, 0x6FC0, 0x5E00, 0xAE02, 0x0CEC] := by decide
/-- C7: `bsri 0x3,$s0,$s1` and `swo $s0,$s1,0x0004`. -/
theorem test_bsri_swo_words :
    (Pseudo.bsri 3 1 2).expand.map encode = [0x5E00, 0xAE03, 0x7E12] ∧
      (Pseudo.swo 1 2 0x0004).expand.map encode = [0x5E00, 0xAE04, 0x02EE, 0xF1E0] := by decide
/-- R89 to R96: a comment, a blank line, and a label used before its line. -/
theorem test_assemble_label :
    assemble settings "jmp %End # go\n\nEnd: jr $la".toList =
      .ok [(0x0000, 0x5B00), (0x0002, 0xAB06), (0x0004, 0x300B), (0x0006, 0x300B)] := by decide
theorem test_assemble_refuses :
    assemble settings "jmp %Nowhere".toList = .error .undefinedLabel ∧
    assemble settings "A: jr $ra\nA: jr $ra".toList = .error .duplicateLabel ∧
    assemble settings "lui $t0,0x100".toList = .error .illFormedStatement ∧
    assemble settings "add $1,$0,$0".toList = .error .badOperand ∧
    assemble { settings with loadBase := 0x0101 } "jr $ra".toList = .error .oddLoadBase ∧
    assemble settings "A: .asciiz text".toList = .error .asciizPackingOpen ∧
    parseLine "A: .asciiz".toList = .ok (some ⟨some ['A'], .data []⟩) := by decide

/-! ### The CPU cycle by cycle -/

/-- R231: one whole `lui` (cycles 2 to 7 and 11), the row of C3. -/
theorem test_cpu_lui :
    (match Cpu.clocks settings 7 (cpuAt (stateWith 0x100 0x5512 [(5, 0xFFFF)] [])) with
      | .next v => some (reg 5 v.arch, pc v.arch, v.cycle)
      | _ => none) = some (0x1200, 0x0102, .c2) := by decide

/-! ### Witnesses: for each statement with hypotheses, an input that meets them -/

theorem witness_EncodeOfDecode : decode settings 0xFFC0 = .ok (.sw .ra .sp) := by decide

/-- Either order of the bytes of 0xFFC0. -/
theorem witness_InstructionIsTwoBytes :
    decodeBytes .big settings [0xFF, 0xC0, 0x12] = .ok (.sw .ra .sp, [0x12]) ∧
      decodeBytes .little settings [0xC0, 0xFF, 0x12] = .ok (.sw .ra .sp, [0x12]) := by decide

theorem witness_IgnoredSbzFieldsHaveNoEffect : ({ settings with sbzNonzero := .ignore } : Config).sbzNonzero = .ignore := rfl

/-- The three clauses: the highest word, an even address without a value, and an odd address. -/
theorem witness_LwResult :
    let s := stateWith 0x100 0x6120 [(2, 0xFFFE), (3, 0x0200), (4, 0xFFFF)] [(0xFFFE, 0x0001)]
    ((s.getReg 2).toNat % 2 = 0 ∧ s.wordAt (s.getReg 2) = some 0x0001) ∧
      ((s.getReg 3).toNat % 2 = 0 ∧ s.wordAt (s.getReg 3) = none) ∧ (s.getReg 4).toNat % 2 = 1 := by decide

theorem witness_SwResult :
    let s := stateWith 0x100 0xF120 [(2, 0xFFFE), (4, 0xFFFF)] []
    dataAddress settings s (effectiveAddress s 2) = .next 0xFFFE ∧ (s.getReg 2).toNat % 2 = 0 ∧ (s.getReg 4).toNat % 2 = 1 :=
  ⟨rfl, by decide, by decide⟩

/-- Both clauses of `BeqResult`, `JrResult` and `JrlResult`: an even and an odd target. -/
theorem witness_targets :
    let s := stateWith 0x10 0x212B [(11, 0xFFFE), (12, 0xFFFF)] []
    (s.getReg 11).toNat % 2 = 0 ∧ (s.getReg 12).toNat % 2 = 1 := by decide

theorem witness_OnlyDestinationRegisterChanges :
    (∃ t, exec (.add 1 2 3) State.reset = .next t) ∧ destOf (.add 1 2 3) ≠ some 2 := ⟨⟨_, rfl⟩, by decide⟩

/-- Two states that differ in a register `add $s0,$s1,$s2` does not read, and two on which `jr` faults alike. -/
theorem witness_OnlySourceRegistersMatter :
    let s := stateWith 0x100 0x0123 [(11, 0x0041)] []
    let u := s.setReg 3 0x00FF
    ((∀ r ∈ sourcesOf (.add 1 2 3), u.getReg r = s.getReg r) ∧ u.pc = s.pc ∧ u.mem = s.mem ∧ ∃ t, exec (.add 1 2 3) s = .next t) ∧
      (∀ r ∈ sourcesOf (.jr 11), u.getReg r = s.getReg r) ∧ exec (.jr 11) s = .fault (.misalignedTarget 0x0041 0x0100) :=
  ⟨⟨by decide, rfl, rfl, _, rfl⟩, by decide, rfl⟩

theorem witness_OnlySwChangesMemory : (∃ t, exec (.ori 5 0x34) State.reset = .next t) ∧ (Instr.ori 5 0x34).opcode ≠ .sw :=
  ⟨⟨_, rfl⟩, by decide⟩

theorem witness_PcAdvancesUnlessTransfer :
    (∃ t, exec (.add 0 0 0) (stateWith 0xFFFE 0x0000 [] []) = .next t) ∧ (Instr.add 0 0 0).opcode ≠ .beq ∧
      (Instr.add 0 0 0).opcode ≠ .jr ∧ (Instr.add 0 0 0).opcode ≠ .jrl := ⟨⟨_, rfl⟩, by decide⟩

/-- An instruction with destination `$0`; a `lw` whose read succeeds; and one whose read does not. -/
theorem witness_ZeroDestinationIsDiscarded :
    destOf (.add 1 2 0) = some 0#4 ∧ destOf (.lw 0 2) = some 0#4 ∧
      (∃ v, memRead settings (stateWith 0x100 0x6020 [(2, 0x0200)] [(0x0200, 0xCAFE)]) 0x0200 = .next v) ∧
      ∀ v, memRead settings State.reset 0x0200 ≠ .next v :=
  ⟨by decide, by decide, ⟨_, rfl⟩, fun _ h => by cases h⟩

/-- R197's checks one by one, and none: no value at the pc; a reserved word; an odd target; an odd address; no value at the
address; and a state that completes. -/
theorem witness_StepFaultsExactlyInOrder :
    expectedFault State.reset = some (.uninitialisedRead 0 0) ∧
    expectedFault (stateWith 0x100 0x3010 [] []) = some (.reservedEncoding 0x3010 0x100) ∧
    expectedFault (stateWith 0x100 0x300B [(11, 0x0125)] []) = some (.misalignedTarget 0x0125 0x100) ∧
    expectedFault (stateWith 0x100 0xF120 [(2, 0xFFFF)] []) = some (.misalignedData 0xFFFF 0x100) ∧
    expectedFault (stateWith 0x100 0x6120 [(2, 0x0200)] []) = some (.uninitialisedRead 0x0200 0x100) ∧
    expectedFault (stateWith 0xFFFE 0x0000 [] []) = none ∧ ({ State.reset with pc := 0xFFFF } : State).pc.toNat % 2 = 1 := by
  decide

theorem witness_StepRunsDecodedInstruction :
    let s := stateWith 0xFFFE 0x0123 [] []
    s.pc.toNat % 2 = 0 ∧ s.wordAt s.pc = some 0x0123 ∧ decode settings 0x0123 = .ok (.add 1 2 3) := by decide

theorem witness_StepFaultsOnReservedEncoding :
    let s := stateWith 0x100 0xFFFF [] []
    s.pc.toNat % 2 = 0 ∧ s.wordAt s.pc = some 0xFFFF ∧ decode settings 0xFFFF = .error (.reservedEncoding 0xFFFF) := by decide

/-- The store of P5: `add $s0,$s1,$s2` put into the next instruction. -/
theorem witness_StoreIsSeenByNextFetch :
    let s := stateWith 0x0010 0xF560 [(5, 0x0123), (6, 0x0012)] [(0x0012, 0x0000)]
    s.pc.toNat % 2 = 0 ∧ s.wordAt s.pc = some (encode (.sw 5 6)) ∧ s.getReg 6 = s.pc + 2#16 ∧ s.getReg 5 = encode (.add 1 2 3) := by
  decide

/-- Both forms of R206. -/
theorem witness_EndOfRunIsFixedPoint :
    atEnd (stateWith 0x200 0x300B [(11, 0x0200)] []) = true ∧ atEnd (stateWith 0x10 0x200B [(11, 0x0010)] []) = true := by decide

theorem stateWith_even_inv (w : Word) : (stateWith 0x100 w [] []).Inv :=
  ⟨by simp [stateWith, isEven], writeWord_wf (by decide) (by decide) _, rfl⟩

theorem witness_StepKeepsInvariant :
    (stateWith 0x100 0x0000 [] []).Inv ∧ ∃ t, step (stateWith 0x100 0x0000 [] []) = .next t :=
  ⟨stateWith_even_inv 0x0000, _, rfl⟩

/-- A launched no-op, and the state one step on. -/
theorem witness_LaunchedRunsKeepInvariant : ∃ s t, launchImage [(0x0000, 0x0000)] = .ok s ∧ Reaches s t ∧ t.pc = 0x0002 :=
  ⟨_, _, rfl, .step (.refl _) rfl, rfl⟩

theorem witness_LoadGivesLastStore :
    (∃ t, memWrite settings State.reset 0xFFFE 0x1234 = .next t) ∧
      dataAddress settings State.reset 0x0000 ≠ dataAddress settings State.reset 0xFFFE :=
  ⟨⟨_, rfl⟩, fun h => by cases h⟩

/-- Two memories in canonical form that hold the same words. -/
theorem witness_ByteOrderIsNotObservable :
    let m := Memory.writeWord (Memory.writeWord [] 0xFFFE 0x0001) 0x0200 0x1234
    let n := Memory.writeWord (Memory.writeWord [] 0x0200 0x1234) 0xFFFE 0x0001
    Memory.wf m ∧ Memory.wf n ∧ ∀ a, isEven a = true → Memory.readWord m a = Memory.readWord n a :=
  ⟨by decide, by decide, fun _ _ => rfl⟩

theorem witness_OddDataAddressSettings :
    (0xFFFF#16).toNat % 2 = 1 ∧ settings.misalignedData = .fault ∧
      ({ settings with misalignedData := .ignoreBit0 } : Config).misalignedData = .ignoreBit0 := by decide

/-- Every clause: an odd and an absent entry point, an image with an odd address, and one with distinct addresses that is
launched and leaves an address out. -/
theorem witness_LaunchLoadsImage :
    ({ settings with resetPc := 0xFFFF } : Config).resetPc.toNat % 2 = 1 ∧
    ({ settings with resetPc := 0x8000, memImplemented := fun a => a.toNat < 0x8000 } : Config).memImplemented 0x8000 = false ∧
    (settings.resetPc.toNat % 2 = 0 ∧ settings.memImplemented settings.resetPc = true ∧ (0xFFFF#16).toNat % 2 = 1) ∧
    (∀ p ∈ [((0x0000 : Word), (0x5512 : Word)), (0xFFFE, 0x300F)], p.1.toNat % 2 = 0 ∧ settings.memImplemented p.1 = true) ∧
    (0x0002#16) ∉ [(0x0000, 0x5512), (0xFFFE, 0x300F)].map (Prod.fst (α := Word) (β := Word)) ∧
    (∃ s, launchImage [(0x0000, 0x5512), (0xFFFE, 0x300F)] = .ok s) ∧
    ([(0x0000, 0x5512), (0xFFFE, 0x300F)].map (Prod.fst (α := Word) (β := Word))).Nodup :=
  ⟨by decide, by decide, by decide, by simp [settings], by decide, ⟨_, rfl⟩, by decide⟩

/-- An instruction that completes and one that faults, both at Fetch; also what `InstructionCycleCounts` assumes. -/
theorem witness_CpuCyclesRefineInstruction :
    ((cpuAt (stateWith 0x100 0x0123 [] [])).cycle = .c2 ∧
      fetchInstr settings (stateWith 0x100 0x0123 [] []) = .next (.add 1 2 3) ∧
      ∃ t, runDecoded settings (execWith settings (.add 1 2 3)) (stateWith 0x100 0x0123 [] []) = .next t) ∧
    fetchInstr settings (stateWith 0x100 0x300B [(11, 0x0125)] []) = .next (.jr 11) ∧
      runDecoded settings (execWith settings (.jr 11)) (stateWith 0x100 0x300B [(11, 0x0125)] []) =
        .fault (.misalignedTarget 0x0125 0x0100) :=
  ⟨⟨rfl, rfl, _, rfl⟩, rfl, rfl⟩

/-- Every clause: an odd target that faults, an odd and an even one that go on; and with a target waiting, a slot's instruction
that completes and one that faults, and the same instruction in no slot. -/
theorem witness_TransfersUnderEverySetting :
    let s := stateWith 0x10 0x212B [(11, 0xFFFE), (12, 0xFFFF)] []
    let c : Config := { settings with delaySlot := true }
    let u : State := { stateWith 0xFFFE 0x0123 [] [] with delayed := some 0x0100 }
    let v : State := { stateWith 0xFFFE 0x300B [(11, 0x0041)] [] with delayed := some 0x0100 }
    ((s.getReg 12).toNat % 2 = 1 ∧ settings.misalignedTarget = .fault ∧ (s.getReg 11).toNat % 2 = 0 ∧
      ({ settings with misalignedTarget := .ignoreBit0 } : Config).misalignedTarget = .ignoreBit0) ∧
    (fetchInstr c u = .next (.add 1 2 3) ∧ ∃ t, execWith c (.add 1 2 3) { u with delayed := none } = .next t) ∧
    (fetchInstr c v = .next (.jr 11) ∧
      execWith c (.jr 11) { v with delayed := none } = .fault (.misalignedTarget 0x0041 0xFFFE)) ∧
    fetchInstr c (stateWith 0xFFFE 0x0123 [] []) = .next (.add 1 2 3) ∧ (stateWith 0xFFFE 0x0123 [] []).delayed = none :=
  ⟨by decide, ⟨rfl, _, rfl⟩, ⟨rfl, rfl⟩, rfl, rfl⟩

/-- Every clause, at the edge of a memory that ends at 0x7FFE and at the highest address: a pc that is absent and one without a
value; an odd address that faults; and an absent word, a word without a value and one with a value. -/
theorem witness_MemoryChecksUnderEverySetting :
    let c : Config := { settings with memImplemented := fun a => isEven a && decide (a.toNat < 0x8000) }
    let s := stateWith 0x100 0x6120 [(2, 0x7FFE), (3, 0x8000), (4, 0xFFFF), (5, 0x0000)] [(0x7FFE, 0x0042)]
    (c.memImplemented 0x8000 = false ∧ c.memImplemented 0x7FFE = true ∧ c.memImplemented 0x0000 = true) ∧
    (State.reset.pc.toNat % 2 = 0 ∧ c.memImplemented State.reset.pc = true ∧ State.reset.wordAt State.reset.pc = none) ∧
    ((s.getReg 4).toNat % 2 = 1 ∧ c.misalignedData = .fault) ∧
    ((s.getReg 3).toNat % 2 = 0 ∧ c.memImplemented (s.getReg 3) = false) ∧
    ((s.getReg 5).toNat % 2 = 0 ∧ s.wordAt (s.getReg 5) = none) ∧
    ((s.getReg 2).toNat % 2 = 0 ∧ s.wordAt (s.getReg 2) = some 0x0042) := by decide

theorem witness_InstructionCycleCounts :
    ∃ v, Cpu.clocks settings 6 (cpuAt (stateWith 0x100 0x0123 [] [])) = .next v := ⟨_, rfl⟩

theorem witness_CpuWaitsForMemory :
    (cpuAt State.reset).cycle = .c2 ∧ ({ cpuAt State.reset with cycle := .c6 } : Cpu).cycle = .c6 ∧
      ({ cpuAt State.reset with cycle := .c11 } : Cpu).cycle = .c11 := ⟨rfl, rfl, rfl⟩

/-- C7: `lwo $s0,$s1,0xFFFE`, and `$at` as the base. -/
theorem witness_OffsetPseudoEffects :
    let s := stateWith 0x100 0x0000 [(2, 0x0200)] [(0x01FE, 0x0042)]
    (s.getReg 2 + 0xFFFE#16).toNat % 2 = 0 ∧ s.wordAt (s.getReg 2 + 0xFFFE#16) = some 0x0042 ∧
      (0x0001#16 + 0x0001#16).toNat % 2 = 0 := by decide

/-- `PushEffect` and `CallEntersCallee`: an even `$sp`, at 0x0000 where it wraps, and an even callee. -/
theorem witness_PushEffect : (State.reset.getReg .sp).toNat % 2 = 0 ∧ (0x0100#16).toNat % 2 = 0 := by decide

theorem witness_PopEffect :
    let s := stateWith 0x100 0x0000 [(.sp, 0xFFFE)] [(0xFFFE, 0xABCD)]
    (s.getReg .sp).toNat % 2 = 0 ∧ s.wordAt (s.getReg .sp) = some 0xABCD ∧ Reg.s0 ≠ 0#4 ∧ Reg.s0 ≠ .at ∧ Reg.s0 ≠ .sp := by decide

/-- Three different registers; and `rs` the same as `rt`, as `rd`, and `$at`. -/
theorem witness_SubEffect :
    ∀ rs ∈ [Reg.s0, Reg.s1, Reg.s2, Reg.at], Reg.s1 ≠ Reg.s2 ∧ rs ≠ .sp ∧ (∀ r ∈ [Reg.s1, Reg.s2], r ≠ .at ∧ r ≠ .sp) ∧
      (State.reset.getReg .sp).toNat % 2 = 0 := by decide

theorem witness_JumpPseudoEffects : (0xFFFE#16).toNat % 2 = 0 := by decide

theorem witness_WellFormedStatementsAssemble :
    (Stmt.mk (.ps .call) [.label ['f']]).wf = true ∧ (Stmt.mk (.hw .sw) [.reg 15, .reg 12]).wf = true ∧
      0xFF < 0x100 ∧ 0xFFFF < 0x10000 ∧ 0xF < 0x10 ∧ Reg.s1 ≠ Reg.s2 := by decide

theorem witness_AssembledWordsAreConsecutive :
    assemble settings "push $ra\njr $ra".toList =
      .ok [(0x0000, 0x5EFF), (0x0002, 0xAEFE), (0x0004, 0x0CEC), (0x0006, 0xFFC0), (0x0008, 0x300F)] := by decide

/-- A label on the second line, after the four words of `push`. -/
theorem witness_LabelsAreLineAddresses :
    (collectLabels settings [⟨none, .code (.ps (.push 15))⟩, ⟨some ['L'], .code (.hw (.jr 15))⟩] 0x0100 []) =
      .ok [(['L'], 0x0108)] := by decide

theorem witness_AsciizRefusedWithoutPacking :
    settings.asciizPacking = none ∧
      parseLines (splitAtChar '\n' "A: .asciiz hi".toList) = .ok [⟨some ['A'], .data ['h', 'i']⟩] := ⟨rfl, by decide⟩

end Sys2Proof.Tests
end

section
/-! Proofs of the encoding statements (30_encoding.md): the round trips of words and of bytes, and the length of an
instruction. -/

namespace Sys2Proof

/-- No bit of an instruction is lost in its word, whatever `SBZ_NONZERO` is: the should-be-zero fields are encoded as
zeros (R86), so the check of R87 passes. -/
@[simp] theorem decode_encode (c : Config) (i : Instr) : decode c (encode i) = .ok i := by
  cases i <;> simp [encode, decode]

/-- The two halves of a word, the high one first, are the word again. -/
theorem extractLsb'_append_halves (w : Word) : w.extractLsb' 8 8 ++ w.extractLsb' 0 8 = w := by
  rw [BitVec.extractLsb'_append_extractLsb'_eq_extractLsb' (by rfl), BitVec.extractLsb'_eq_self]

/-- A word's bytes are two, and they are read back as that word in the byte order they were written in. -/
theorem exists_bytesOfWord_eq (o : ByteOrder) (w : Word) : ∃ p q, bytesOfWord o w = [p, q] ∧ wordOfBytes o p q = w := by
  cases o with
  | big => exact ⟨_, _, rfl, extractLsb'_append_halves w⟩
  | little => exact ⟨_, _, rfl, extractLsb'_append_halves w⟩

@[simp] theorem length_encodeBytes (o : ByteOrder) (i : Instr) : (encodeBytes o i).length = 2 := by
  obtain ⟨p, q, hbytes, -⟩ := exists_bytesOfWord_eq o (encode i)
  simp [encodeBytes, hbytes]

/-- What `decodeBytes` answers, said once: it takes two bytes, and they are a word that decodes (R82). -/
theorem decodeBytes_eq_ok_iff {o : ByteOrder} {c : Config} {bytes rest : List Byte} {i : Instr} :
    decodeBytes o c bytes = .ok (i, rest) ↔
      ∃ p q, bytes = p :: q :: rest ∧ decode c (wordOfBytes o p q) = .ok i := by
  match bytes with
  | [] => simp [decodeBytes]
  | [_] => simp [decodeBytes]
  | p :: q :: tail =>
    cases hdec : decode c (wordOfBytes o p q) with
    | error e => simp [decodeBytes, hdec, Except.map]
    | ok j => simp [decodeBytes, hdec, Except.map, and_comm]

theorem decodeBytes_encodeBytes_append (o : ByteOrder) (c : Config) (i : Instr) (rest : List Byte) :
    decodeBytes o c (encodeBytes o i ++ rest) = .ok (i, rest) := by
  obtain ⟨p, q, hbytes, hword⟩ := exists_bytesOfWord_eq o (encode i)
  exact decodeBytes_eq_ok_iff.mpr ⟨p, q, by simp [encodeBytes, hbytes], by simp [hword]⟩

/-- Settles O7: the bytes of a word are two and are read back as it, and `decodeBytes` takes two bytes before it looks at
them. -/
theorem instructionIsTwoBytes : Obligations.InstructionIsTwoBytes := by
  intro o c
  refine ⟨fun i rest => ⟨length_encodeBytes o i, decodeBytes_encodeBytes_append o c i rest⟩, fun bytes rest i h => ?_⟩
  obtain ⟨p, q, rfl, -⟩ := decodeBytes_eq_ok_iff.mp h
  simp

end Sys2Proof
end

section
/-! Proofs of the arithmetic and logic statements (40_arith_logic.md): the five instructions are each `finish` of one
value (R116), so the frame is `finish`'s, said once. -/

namespace Sys2Proof

open Machine

/-! ### An instruction that ends in `finish` -/

/-- An instruction that is `finish` of one value completes, and writes that value to its register and nothing else. The
shifts and the immediates have this shape too. -/
theorem exec_writesOnlyReg_of_eq_finish {i : Instr} {rd : Reg} {v : Word} {s : State} (h : exec i s = finish rd v s) :
    ∃ t, exec i s = .next t ∧ WritesOnlyReg rd v s t :=
  ⟨(s.setReg rd v).advance, h, finish_writesOnlyReg rd v s⟩

/-! ### The values they finish with (R110 to R113, R115) -/

theorem exec_add (rs rt rd : Reg) (s : State) :
    exec (.add rs rt rd) s = finish rd (s.getReg rs + s.getReg rt) s := rfl

theorem exec_and (rs rt rd : Reg) (s : State) :
    exec (.and rs rt rd) s = finish rd (s.getReg rs &&& s.getReg rt) s := rfl

theorem exec_nor (rs rt rd : Reg) (s : State) :
    exec (.nor rs rt rd) s = finish rd (~~~(s.getReg rs ||| s.getReg rt)) s := rfl

theorem exec_or (rs rt rd : Reg) (s : State) :
    exec (.or rs rt rd) s = finish rd (s.getReg rs ||| s.getReg rt) s := rfl

theorem exec_xor (rs rt rd : Reg) (s : State) :
    exec (.xor rs rt rd) s = finish rd (s.getReg rs ^^^ s.getReg rt) s := rfl

/-- The machine's addition is the sum of the numbers modulo 2^16, its carry dropped (R110). -/
theorem add_eq_ofNat_sum_mod (a b : Word) : a + b = BitVec.ofNat 16 ((a.toNat + b.toNat) % 2 ^ 16) := by
  rw [← BitVec.toNat_add, BitVec.ofNat_toNat, BitVec.setWidth_eq]

/-! ### The statements

The word each of them writes out is `encode` of its instruction, so that it decodes is `decode_encode`. -/

/-- Settles O8: `add` finishes with the machine's sum, which is the sum modulo 2^16. -/
theorem addResult : Obligations.AddResult := by
  intro rs rt rd s
  rw [← add_eq_ofNat_sum_mod]
  exact ⟨decode_encode settings (.add rs rt rd), exec_writesOnlyReg_of_eq_finish (exec_add rs rt rd s)⟩

/-- Settles O9: `and` finishes with the bitwise and. -/
theorem andResult : Obligations.AndResult := fun rs rt rd s =>
  ⟨decode_encode settings (.and rs rt rd), exec_writesOnlyReg_of_eq_finish (exec_and rs rt rd s)⟩

/-- Settles O10: `nor` finishes with the complement of the bitwise or. -/
theorem norResult : Obligations.NorResult := fun rs rt rd s =>
  ⟨decode_encode settings (.nor rs rt rd), exec_writesOnlyReg_of_eq_finish (exec_nor rs rt rd s)⟩

/-- Settles O11: `or` finishes with the bitwise or. -/
theorem orResult : Obligations.OrResult := fun rs rt rd s =>
  ⟨decode_encode settings (.or rs rt rd), exec_writesOnlyReg_of_eq_finish (exec_or rs rt rd s)⟩

/-- Settles O12: `xor` finishes with the bitwise exclusive or. -/
theorem xorResult : Obligations.XorResult := fun rs rt rd s =>
  ⟨decode_encode settings (.xor rs rt rd), exec_writesOnlyReg_of_eq_finish (exec_xor rs rt rd s)⟩

end Sys2Proof
end

section
/-! Proofs of the immediate statements (42_immediate.md): `lui` and `ori` are each `finish` of one value too, on their
one register (C5), and the operands they make of the immediate are given as numbers. -/

namespace Sys2Proof

open Machine

/-! ### The values they finish with (R130, R131) -/

theorem exec_lui (rs : Reg) (imm : Byte) (s : State) :
    exec (.lui rs imm) s = finish rs (upperImmediate imm) s := rfl

theorem exec_ori (rs : Reg) (imm : Byte) (s : State) :
    exec (.ori rs imm) s = finish rs (s.getReg rs ||| zeroExtended imm) s := rfl

/-! ### The operands as the words of their numbers (R85) -/

theorem upperImmediate_eq_ofNat (imm : Byte) : upperImmediate imm = BitVec.ofNat 16 (imm.toNat * 256) := by
  rw [← upperImmediate_toNat, BitVec.ofNat_toNat, BitVec.setWidth_eq]

theorem zeroExtended_eq_ofNat (imm : Byte) : zeroExtended imm = BitVec.ofNat 16 imm.toNat := by
  rw [← zeroExtended_toNat, BitVec.ofNat_toNat, BitVec.setWidth_eq]

/-! ### The statements -/

/-- Settles O14: `lui` finishes with its operand, whose number is the immediate times 256. -/
theorem luiResult : Obligations.LuiResult := by
  intro rs imm s
  rw [← upperImmediate_eq_ofNat]
  exact ⟨decode_encode settings (.lui rs imm), exec_writesOnlyReg_of_eq_finish (exec_lui rs imm s)⟩

/-- Settles O15: `ori` finishes with the bitwise or of its register and its operand, whose number is the immediate's. -/
theorem oriResult : Obligations.OriResult := by
  intro rs imm s
  rw [← zeroExtended_eq_ofNat]
  exact ⟨decode_encode settings (.ori rs imm), exec_writesOnlyReg_of_eq_finish (exec_ori rs imm s)⟩

end Sys2Proof
end

section
/-! Proofs of the shift and rotate statements (44_shift_rotate.md): `sll`, `srl` and `bsr` are each `finish` of one value
too (R153), and that value is given as a number for the shifts and bit by bit for the rotation. -/

namespace Sys2Proof

open Machine

/-! ### The values they finish with (R150 to R152) -/

theorem exec_sll (rs rt rd : Reg) (s : State) :
    exec (.sll rs rt rd) s = finish rd (s.getReg rt <<< shiftAmount (s.getReg rs)) s := rfl

theorem exec_srl (rs rt rd : Reg) (s : State) :
    exec (.srl rs rt rd) s = finish rd (s.getReg rt >>> shiftAmount (s.getReg rs)) s := rfl

theorem exec_bsr (rs rt rd : Reg) (s : State) :
    exec (.bsr rs rt rd) s = finish rd (ror16 (s.getReg rt) (shiftAmount (s.getReg rs))) s := rfl

/-! ### The shifts as numbers, the rotation by its bits -/

/-- A left shift is the product by the power of two modulo 2^16 (R151). -/
theorem shiftLeft_eq_ofNat_mul_mod (v : Word) (n : Nat) : v <<< n = BitVec.ofNat 16 (v.toNat * 2 ^ n % 2 ^ 16) := by
  rw [← Nat.shiftLeft_eq, ← BitVec.toNat_shiftLeft, BitVec.ofNat_toNat, BitVec.setWidth_eq]

/-- A logical right shift is the floor of the quotient by the power of two (R152). -/
theorem ushiftRight_eq_ofNat_div (v : Word) (n : Nat) : v >>> n = BitVec.ofNat 16 (v.toNat / 2 ^ n) := by
  rw [← Nat.shiftRight_eq_div_pow, ← BitVec.toNat_ushiftRight, BitVec.ofNat_toNat, BitVec.setWidth_eq]

/-- Bit `k` of the rotation is bit `k + n` of the word, counted modulo 16 (R150): the bits below `16 - n` come down by `n`,
the others are the low `n` bits, which enter at the top. -/
theorem getLsbD_ror16 (v : Word) {n k : Nat} (hn : n < 16) (hk : k < 16) :
    (ror16 v n).getLsbD k = v.getLsbD ((k + n) % 16) := by
  rw [ror16_eq_rotateRight v hn, BitVec.getLsbD_rotateRight, Nat.mod_eq_of_lt hn]
  by_cases hlow : k < 16 - n
  · have hbit : (k + n) % 16 = n + k := by omega
    simp [hlow, hbit]
  · have hbit : (k + n) % 16 = k - (16 - n) := by omega
    simp [hlow, hk, hbit]

/-! ### The statements -/

/-- Settles O16: `sll` finishes with the left shift, which is the product modulo 2^16. -/
theorem sllResult : Obligations.SllResult := by
  intro rs rt rd s
  rw [← shiftAmount_eq_mod, ← shiftLeft_eq_ofNat_mul_mod]
  exact ⟨decode_encode settings (.sll rs rt rd), exec_writesOnlyReg_of_eq_finish (exec_sll rs rt rd s)⟩

/-- Settles O17: `srl` finishes with the logical right shift, which is the quotient rounded down. -/
theorem srlResult : Obligations.SrlResult := by
  intro rs rt rd s
  rw [← shiftAmount_eq_mod, ← ushiftRight_eq_ofNat_div]
  exact ⟨decode_encode settings (.srl rs rt rd), exec_writesOnlyReg_of_eq_finish (exec_srl rs rt rd s)⟩

/-- Settles O18: `bsr` finishes with the rotation, whose bits `getLsbD_ror16` gives for every amount below 16. -/
theorem bsrResult : Obligations.BsrResult := by
  intro rs rt rd s
  rw [← shiftAmount_eq_mod]
  have hamount : shiftAmount (s.getReg rs) < 16 := BitVec.isLt _
  obtain ⟨t, hexec, hwrites⟩ := exec_writesOnlyReg_of_eq_finish (exec_bsr rs rt rd s)
  exact ⟨decode_encode settings (.bsr rs rt rd), t, _, hexec, hwrites, fun k hk => getLsbD_ror16 _ hamount hk⟩

end Sys2Proof
end

section
/-! Proof of the `li` statement (45_pseudo_instructions.md): its two instructions each write one register, the same one, so
the frames compose; what is left is that the or of the two operands is the immediate. -/

namespace Sys2Proof

open Machine

/-! ### The two bytes of an immediate (R160) -/

theorem highByte_eq_ofNat (v : Word) : highByte v = BitVec.ofNat 8 (v.toNat / 0x100) := by
  simp [highByte, BitVec.extractLsb', Nat.shiftRight_eq_div_pow]

theorem lowByte_eq_ofNat (v : Word) : lowByte v = BitVec.ofNat 8 (v.toNat % 0x100) := by
  apply BitVec.eq_of_toNat_eq
  simp [lowByte]

/-- The operands of `lui` and `ori` share no bit, and their or joins the two bytes. -/
theorem upperImmediate_highByte_or_zeroExtended_lowByte (v : Word) :
    upperImmediate (highByte v) ||| zeroExtended (lowByte v) = v :=
  calc upperImmediate (highByte v) ||| zeroExtended (lowByte v)
    _ = (highByte v ||| 0#8) ++ (0#8 ||| lowByte v) := BitVec.or_append
    _ = highByte v ++ lowByte v := by simp
    _ = v := extractLsb'_append_halves v

/-! ### Two writes to one register -/

theorem getReg_of_writesOnlyReg {d : Reg} {v : Word} {s t : State} (h : WritesOnlyReg d v s t) (hd : d ≠ 0#4) :
    t.getReg d = v := by
  rw [h.1, if_neg hd]

/-- After two writes to one register the second value stands, and the frame is that of one write. On register 0 both are
discarded, so there the second value may be any. -/
theorem writesOnlyReg_trans {d : Reg} {u v w : Word} {s t t' : State} (hfirst : WritesOnlyReg d u s t)
    (hsecond : WritesOnlyReg d w t t') (hw : d ≠ 0#4 → w = v) : WritesOnlyReg d v s t' := by
  obtain ⟨-, hregs, hmem, hdelayed⟩ := hfirst
  obtain ⟨hvalue, hregs', hmem', hdelayed'⟩ := hsecond
  refine ⟨?_, fun r hr => (hregs' r hr).trans (hregs r hr), fun a => (hmem' a).trans (hmem a), hdelayed'.trans hdelayed⟩
  by_cases hd : d = 0#4
  · simp [hd]
  · rw [hvalue, if_neg hd, if_neg hd, hw hd]

/-! ### The statement -/

/-- Settles O48: `ori` runs in the state `lui` leaves, and finishes with the or of the two operands, which is the
immediate. -/
theorem liEffect : Obligations.LiEffect := by
  intro rs v s
  obtain ⟨t, hlui, hupper⟩ := exec_writesOnlyReg_of_eq_finish (exec_lui rs (highByte v) s)
  obtain ⟨t', hori, hor⟩ := exec_writesOnlyReg_of_eq_finish (exec_ori rs (lowByte v) t)
  refine ⟨?_, t', ?_, writesOnlyReg_trans hupper hor fun hrs => ?_⟩
  · rw [← highByte_eq_ofNat, ← lowByte_eq_ofNat, Pseudo.expand, expandLi]
  · simp [Pseudo.expand, expandLi, execSeq, hlui, hori]
  · rw [getReg_of_writesOnlyReg hupper hrs, upperImmediate_highByte_or_zeroExtended_lowByte]

end Sys2Proof
end

section
/-! Proofs of the decoding statements (30_encoding.md R83 to R88). A word names one instruction by its opcode and its operand
fields, whatever its should-be-zero fields hold; decoding is that instruction after one check of those fields. -/

namespace Sys2Proof

/-! ### The instruction a word names, and its should-be-zero fields -/

/-- The instruction that the opcode and the operand fields of a word name (R83, R84). -/
def namedInstr (w : Word) : Instr :=
  match opcodeOf w with
  | .add => .add (rsField w) (rtField w) (rdField w)
  | .and => .and (rsField w) (rtField w) (rdField w)
  | .beq => .beq (rsField w) (rtField w) (rdField w)
  | .jr => .jr (rdField w)
  | .jrl => .jrl (rdField w)
  | .lui => .lui (rsField w) (immField w)
  | .lw => .lw (rsField w) (rtField w)
  | .bsr => .bsr (rsField w) (rtField w) (rdField w)
  | .nor => .nor (rsField w) (rtField w) (rdField w)
  | .or => .or (rsField w) (rtField w) (rdField w)
  | .ori => .ori (rsField w) (immField w)
  | .sll => .sll (rsField w) (rtField w) (rdField w)
  | .slt => .slt (rsField w) (rtField w) (rdField w)
  | .xor => .xor (rsField w) (rtField w) (rdField w)
  | .srl => .srl (rsField w) (rtField w) (rdField w)
  | .sw => .sw (rsField w) (rtField w)

/-- The should-be-zero fields of a word, if its opcode has any, are zero (R86). -/
def sbzZero (w : Word) : Bool :=
  match opcodeOf w with
  | .jr | .jrl => rsField w == 0#4 && rtField w == 0#4
  | .lw | .sw => rdField w == 0#4
  | .add | .and | .beq | .lui | .bsr | .nor | .or | .ori | .sll | .slt | .xor | .srl => true

/-- Decoding is one check of the should-be-zero fields of the instruction that the word names. -/
theorem decode_eq_checkSbz (c : Config) (w : Word) : decode c w = checkSbz c w (sbzZero w) (namedInstr w) := by
  unfold decode sbzZero namedInstr
  cases opcodeOf w <;> simp

theorem decode_eq_ok_iff {c : Config} {w : Word} {i : Instr} :
    decode c w = .ok i ↔ namedInstr w = i ∧ (sbzZero w = true ∨ c.sbzNonzero = .ignore) := by
  rw [decode_eq_checkSbz]
  rcases checkSbz_cases c w (sbzZero w) (namedInstr w) with ⟨hok, hpass⟩ | ⟨herr, hsbz, hfault⟩
  · rw [hok]; simp [hpass]
  · rw [herr]; simp [hsbz, hfault]

theorem decode_eq_reserved_iff {c : Config} {w : Word} :
    decode c w = .error (.reservedEncoding w) ↔ sbzZero w = false ∧ c.sbzNonzero = .fault := by
  rw [decode_eq_checkSbz]
  rcases checkSbz_cases c w (sbzZero w) (namedInstr w) with ⟨hok, hpass | hignore⟩ | ⟨herr, hsbz, hfault⟩
  · rw [hok]; simp [hpass]
  · rw [hok]; simp [hignore]
  · rw [herr]; simp [hsbz, hfault]

/-- Under `settings` a word decodes exactly when its should-be-zero fields are zero. -/
theorem decode_settings_eq_ok_iff {w : Word} {i : Instr} :
    decode settings w = .ok i ↔ namedInstr w = i ∧ sbzZero w = true := by
  simp [decode_eq_ok_iff]

@[simp] theorem opcode_namedInstr (w : Word) : (namedInstr w).opcode = opcodeOf w := by
  unfold namedInstr
  cases opcodeOf w <;> rfl

/-! ### The word of the instruction a word names -/

theorem encodeR_fields {w : Word} {op : Opcode} (h : opcodeOf w = op) :
    encodeR op (rsField w) (rtField w) (rdField w) = w := by
  rw [encodeR, ← h, ← opField_of_opcodeOf, word_of_fields]

theorem encodeI_fields {w : Word} {op : Opcode} (h : opcodeOf w = op) : encodeI op (rsField w) (immField w) = w := by
  rw [encodeI, ← h, ← opField_of_opcodeOf, word_of_fieldsI]

/-- A word whose should-be-zero fields are zero is the encoding of the instruction it names (R83, R86). -/
theorem encode_namedInstr {w : Word} (hsbz : sbzZero w = true) : encode (namedInstr w) = w := by
  unfold sbzZero at hsbz
  unfold namedInstr
  cases hop : opcodeOf w with
  | jr | jrl =>
    simp only [hop, Bool.and_eq_true, beq_iff_eq] at hsbz
    obtain ⟨hrs, hrt⟩ := hsbz
    simpa only [hrs, hrt, encode] using encodeR_fields hop
  | lw | sw =>
    simp only [hop, beq_iff_eq] at hsbz
    simpa only [hsbz, encode] using encodeR_fields hop
  | lui | ori => exact encodeI_fields hop
  | add | and | beq | bsr | nor | or | sll | slt | xor | srl => exact encodeR_fields hop

/-! ### The opcode and the should-be-zero fields as numbers (R87) -/

theorem opcode_number (w : Word) : w.toNat / 0x1000 = (opcodeOf w).bits.toNat := by
  obtain ⟨-, -, -, hop⟩ := toNat_fields w
  rw [← hop, opField_of_opcodeOf]

/-- The words with a should-be-zero field that is not zero, written arithmetically (R87). -/
theorem sbzZero_eq_false_iff (w : Word) :
    sbzZero w = false ↔
      ((w.toNat / 0x1000 = 3 ∨ w.toNat / 0x1000 = 4) ∧ w.toNat / 0x10 % 0x100 ≠ 0) ∨
        ((w.toNat / 0x1000 = 6 ∨ w.toNat / 0x1000 = 15) ∧ w.toNat % 0x10 ≠ 0) := by
  unfold sbzZero
  rw [opcode_number, jumpSbz_eq, memSbz_eq]
  cases opcodeOf w <;> simp [Opcode.bits]

/-! ### The rows of the opcode table -/

theorem word_eq_iff_fields (v w : Word) :
    v = w ↔ opField v = opField w ∧ rsField v = rsField w ∧ rtField v = rtField w ∧ rdField v = rdField w := by
  refine ⟨fun h => by simp [h], fun ⟨hop, hrs, hrt, hrd⟩ => ?_⟩
  rw [← word_of_fields v, hop, hrs, hrt, hrd, word_of_fields]

theorem and_eq_iff_fields (w mask k : Word) :
    w &&& mask = k ↔ opField w &&& opField mask = opField k ∧ rsField w &&& rsField mask = rsField k ∧
      rtField w &&& rtField mask = rtField k ∧ rdField w &&& rdField mask = rdField k := by
  simp only [word_eq_iff_fields, opField, rsField, rtField, rdField, BitVec.extractLsb'_and]

/-- The match bits of a row are its opcode's alone. Its mask takes in bits 15:12; beside them bits 11:4 for `jr` and `jrl`,
and bits 3:0 for `lw` and `sw`. -/
theorem opcodeTable_fields :
    ∀ row ∈ opcodeTable,
      (opField row.matchBits = row.op.bits ∧ rsField row.matchBits = 0#4 ∧ rtField row.matchBits = 0#4 ∧
        rdField row.matchBits = 0#4) ∧
      opField row.mask = 0xF#4 ∧
      rsField row.mask = (if row.op = .jr ∨ row.op = .jrl then 0xF#4 else 0#4) ∧
      rtField row.mask = (if row.op = .jr ∨ row.op = .jrl then 0xF#4 else 0#4) ∧
      rdField row.mask = (if row.op = .lw ∨ row.op = .sw then 0xF#4 else 0#4) := by
  decide

@[simp] theorem and_fifteen (r : BitVec 4) : r &&& 0xF#4 = r := BitVec.and_allOnes

theorem opField_eq_bits_iff (w : Word) (op : Opcode) : opField w = op.bits ↔ opcodeOf w = op :=
  ⟨opcodeOf_of_opField, fun h => h ▸ opField_of_opcodeOf w⟩

/-- A word meets a row exactly when it has the row's opcode and its should-be-zero fields are zero. -/
theorem and_mask_eq_matchBits_iff {row : OpcodeRow} (hrow : row ∈ opcodeTable) (w : Word) :
    w &&& row.mask = row.matchBits ↔ opcodeOf w = row.op ∧ sbzZero w = true := by
  obtain ⟨⟨hop, hrs, hrt, hrd⟩, hopMask, hrsMask, hrtMask, hrdMask⟩ := opcodeTable_fields row hrow
  rw [and_eq_iff_fields, hop, hrs, hrt, hrd, hopMask, hrsMask, hrtMask, hrdMask, and_fifteen, opField_eq_bits_iff]
  refine and_congr_right fun hopcode => ?_
  unfold sbzZero
  rw [hopcode]
  cases row.op <;> simp

/-- Every opcode has a row. -/
theorem exists_row (op : Opcode) : ∃ row ∈ opcodeTable, row.op = op := by
  cases op <;> decide

/-! ### The statements -/

/-- Settles O1: each word is the encoding of the instruction it decodes to. -/
theorem decodesKnownWords : Obligations.DecodesKnownWords := by
  simp only [Obligations.DecodesKnownWords, decode_settings_eq_ok_iff]
  decide

/-- Settles O2: the should-be-zero fields are encoded as zeros, so the check of them passes under every setting. -/
theorem decodeOfEncode : Obligations.DecodeOfEncode := fun c i => decode_encode c i

/-- Settles O3: a word that decodes has zeros in its should-be-zero fields, so its named instruction encodes to it. -/
theorem encodeOfDecode : Obligations.EncodeOfDecode := by
  intro w i hdec
  obtain ⟨rfl, hsbz⟩ := decode_settings_eq_ok_iff.mp hdec
  exact encode_namedInstr hsbz

/-- Settles O4: to decode to an instruction of an opcode and to meet that opcode's row are both to have the opcode with zeros
in the should-be-zero fields. -/
theorem decodeMatchesOpcodeTable : Obligations.DecodeMatchesOpcodeTable := by
  intro w op
  have hdec : (∃ i, decode settings w = .ok i ∧ i.opcode = op) ↔ opcodeOf w = op ∧ sbzZero w = true := by
    simp [decode_settings_eq_ok_iff, and_comm]
  rw [hdec]
  constructor
  · intro h
    obtain ⟨row, hrow, rfl⟩ := exists_row op
    exact ⟨row, hrow, rfl, (and_mask_eq_matchBits_iff hrow w).mpr h⟩
  · rintro ⟨row, hrow, rfl, hmatch⟩
    exact (and_mask_eq_matchBits_iff hrow w).mp hmatch

/-- Settles O5: under `settings` a word is reserved exactly when a should-be-zero field is not zero, and else decodes. -/
theorem reservedEncodingsExactly : Obligations.ReservedEncodingsExactly := by
  intro w
  rw [← sbzZero_eq_false_iff, decode_eq_reserved_iff]
  refine ⟨by simp, fun hnot => ⟨namedInstr w, decode_settings_eq_ok_iff.mpr ⟨rfl, ?_⟩⟩⟩
  simpa [decode_eq_reserved_iff] using hnot

/-- Settles O6: with the check off, every word decodes to the instruction it names, which is read off the opcode and the
operand fields alone. -/
theorem ignoredSbzFieldsHaveNoEffect : Obligations.IgnoredSbzFieldsHaveNoEffect := by
  intro c hignore
  have hdec (w : Word) : decode c w = .ok (namedInstr w) := decode_eq_ok_iff.mpr ⟨rfl, .inr hignore⟩
  refine ⟨fun w => ⟨_, hdec w, opcode_namedInstr w⟩, fun rs rt rd => ?_⟩
  have hnamed (op : Opcode) : decode c (op.bits ++ rs ++ rt ++ rd) = .ok (namedInstr (encodeR op rs rt rd)) := hdec _
  refine ⟨(hnamed .jr).trans ?_, (hnamed .jrl).trans ?_, (hnamed .lw).trans ?_, (hnamed .sw).trans ?_⟩ <;>
    simp [namedInstr]

end Sys2Proof
end

section
/-! Facts about the state and the shared operations that the statements below turn on: parity and bit 0 of an address, the
word at an address after an update, frames, and what a data access answers under every setting of the parameters. -/

namespace Sys2Proof

open Machine

/-! ### Parity and bit 0 of an address (R52, R120) -/

theorem isEven_eq_false_iff (a : Word) : isEven a = false ↔ a.toNat % 2 = 1 := by
  rw [← Bool.not_eq_true, isEven_iff]
  omega

/-- An address with bit 0 cleared is the number less its parity. -/
theorem clearBit0_eq_ofNat (a : Word) : a &&& 0xFFFE#16 = BitVec.ofNat 16 (a.toNat - a.toNat % 2) := by
  have hlt := a.isLt
  apply BitVec.eq_of_toNat_eq
  rw [clearBit0_toNat, BitVec.toNat_ofNat, Nat.mod_eq_of_lt (by omega)]
  omega

/-- Under the setting that ignores bit 0, and for an even target under every setting, a transfer's target is the address with
bit 0 cleared. -/
theorem targetAddress_next {c : Config} {a : Word} (h : isEven a = true ∨ c.misalignedTarget = .ignoreBit0) (s : State) :
    targetAddress c s a = .next (a &&& 0xFFFE#16) := by
  rcases h with heven | hignore
  · rw [targetAddress_even c s heven, clearBit0_of_even heven]
  · exact targetAddress_ignoreBit0 hignore s a

theorem dataAddress_odd_fault {c : Config} (hc : c.misalignedData = .fault) (s : State) {a : Word} (h : isEven a = false) :
    dataAddress c s a = .fault (.misalignedData a s.pc) := by
  simp [dataAddress, aligned, raise, hc, h]

/-- A step by two keeps an address even (R26, R27). -/
theorem isEven_add_two {a : Word} (h : isEven a = true) : isEven (a + 2#16) = true := by
  rw [isEven_iff] at h ⊢
  rw [BitVec.toNat_add, BitVec.toNat_ofNat]
  omega

/-! ### The word at an address after an update -/

@[simp] theorem wordAt_advance (s : State) (a : Word) : s.advance.wordAt a = s.wordAt a := rfl

@[simp] theorem wordAt_withMem (s : State) (m : Memory) (a : Word) :
    ({ s with mem := m } : State).wordAt a = Memory.readWord m a := rfl

theorem readWord_mem (s : State) (a : Word) : Memory.readWord s.mem a = s.wordAt a := rfl

/-! ### Frames -/

theorem sameMemory_of_mem_eq {s t : State} (h : t.mem = s.mem) : SameMemory s t := fun a => by
  rw [State.wordAt, h, readWord_mem]

/-- After a word is stored, that word is the value and every other one is as before. -/
theorem sameMemoryExcept_writeWord {s t : State} {a v : Word} (h : t.mem = Memory.writeWord s.mem a v) :
    t.wordAt a = some v ∧ SameMemoryExcept a s t := by
  refine ⟨?_, fun b hb => ?_⟩ <;> rw [State.wordAt, h, readWord_writeWord]
  · rw [if_pos rfl]
  · rw [if_neg hb, readWord_mem]

/-- The end of a one-register instruction completes, with its frame and the pc's increment. -/
theorem exists_finish_eq_next (r : Reg) (v : Word) (s : State) :
    ∃ t, finish r v s = .next t ∧ WritesOnlyReg r v s t ∧ t.pc = s.pc + 2#16 :=
  ⟨_, rfl, finish_writesOnlyReg r v s, by simp⟩

/-! ### Data accesses under every setting (R54, R55) -/

/-- The value, or the fault of a word that is not implemented or holds none, in that order (R197 (5), (6)). -/
theorem readWord_eq (c : Config) (s : State) (a : Word) :
    readWord c s a =
      if c.memImplemented a then
        match s.wordAt a with
        | some v => .next v
        | none => .fault (.uninitialisedRead a s.pc)
      else .fault (.unimplementedMemory a s.pc) := by
  cases h : c.memImplemented a
  · simp [readWord, implemented_absent h]
  · simp only [readWord, implemented_present h, andThen_next, readWord_mem, raise]
    rfl

theorem readWord_value {c : Config} {s : State} {a v : Word} (himpl : c.memImplemented a = true)
    (hword : s.wordAt a = some v) : readWord c s a = .next v := by
  simp [readWord_eq, himpl, hword]

theorem readWord_noValue {c : Config} {s : State} {a : Word} (himpl : c.memImplemented a = true)
    (hword : s.wordAt a = none) : readWord c s a = .fault (.uninitialisedRead a s.pc) := by
  simp [readWord_eq, himpl, hword]

theorem readWord_absent {c : Config} {a : Word} (himpl : c.memImplemented a = false) (s : State) :
    readWord c s a = .fault (.unimplementedMemory a s.pc) := by
  simp [readWord_eq, himpl]

theorem memRead_of_dataAddress {c : Config} {s : State} {a b : Word} (h : dataAddress c s a = .next b) :
    memRead c s a = readWord c s b := by
  simp [memRead, h]

theorem memWrite_of_dataAddress {c : Config} {s : State} {a b : Word} (h : dataAddress c s a = .next b) (v : Word) :
    memWrite c s a v = andThen (implemented c s b) fun b => .next { s with mem := Memory.writeWord s.mem b v } := by
  simp [memWrite, h]

/-- A write lands exactly where the alignment check gives an implemented address, and it is that word's write. -/
theorem memWrite_eq_next_iff {c : Config} {s t : State} {a v : Word} :
    memWrite c s a v = .next t ↔
      ∃ b, dataAddress c s a = .next b ∧ c.memImplemented b = true ∧
        t = { s with mem := Memory.writeWord s.mem b v } := by
  rw [memWrite, andThen_eq_next]
  refine exists_congr fun b => and_congr_right fun _ => ?_
  cases himpl : c.memImplemented b
  · simp [implemented_absent himpl]
  · simp [implemented_present himpl, eq_comm]

/-! ### Fetching under every setting (R56) -/

/-- Everything that a fetch of an instruction tells. -/
theorem fetchInstr_next {c : Config} {s : State} {i : Instr} (h : fetchInstr c s = .next i) :
    ∃ w, isEven s.pc = true ∧ fetch c s = .next w ∧ decode c w = .ok i := by
  obtain ⟨w, hfetch, hdec⟩ := andThen_eq_next.mp h
  have heven : isEven s.pc = true := by
    by_contra hodd
    simp [fetch, hodd] at hfetch
  refine ⟨w, heven, hfetch, ?_⟩
  unfold decodeFetched raise at hdec
  split at hdec
  · next j hj => cases hdec; exact hj
  · cases hdec

end Sys2Proof
end

section
/-! Proofs of the statements of `slt`, `lw`, `sw`, `beq`, `jr` and `jrl` (40_arith_logic.md, 41_control_transfer.md,
43_load_store.md) under the modelled settings. -/

namespace Sys2Proof

open Machine

/-- What `slt` writes, by the integers the words stand for (R114). -/
theorem sltResult_eq (c : Config) (a b : Word) :
    sltResult c a b = if a.toInt < b.toInt then 1#16 else c.sltFalseValue := by
  simp [sltResult, signedLess, signed_eq_toInt]

/-- Settles O13: under every setting `slt` finishes with `sltResult`. -/
theorem sltResult : Obligations.SltResult := by
  intro rs rt rd s
  have hslt (c : Config) : ∃ t, execWith c (.slt rs rt rd) s = .next t ∧
      WritesOnlyReg rd (if (s.getReg rs).toInt < (s.getReg rt).toInt then 1#16 else c.sltFalseValue) s t ∧
      t.pc = s.pc + 2#16 := by
    rw [← sltResult_eq]
    exact exists_finish_eq_next ..
  exact ⟨decode_encode settings (.slt rs rt rd), hslt settings, hslt⟩

/-- Settles O19: the three clauses are the three answers of `execLw_settings`. -/
theorem lwResult : Obligations.LwResult := by
  intro rs rt s
  refine ⟨decode_encode settings (.lw rs rt), fun heven v hword => ?_, fun heven hword => ?_, fun hodd => ?_⟩ <;>
    rw [exec, execLw_settings, readWord_mem]
  · rw [(isEven_iff _).mpr heven, hword]
    exact exists_finish_eq_next rs v s
  · rw [(isEven_iff _).mpr heven, hword]
    rfl
  · rw [(isEven_eq_false_iff _).mpr hodd]
    rfl

theorem execSw_even {rs rt : Reg} {s : State} (h : isEven (s.getReg rt) = true) :
    exec (.sw rs rt) s =
      .next ({ s with mem := Memory.writeWord s.mem (s.getReg rt) (s.getReg rs) } : State).advance := by
  rw [exec, execSw_settings, if_pos h]

/-- Settles O20: an address that passes its check under `settings` is even and is itself; there the store lands. -/
theorem swResult : Obligations.SwResult := by
  intro rs rt s
  refine ⟨decode_encode settings (.sw rs rt), fun a ha => ?_, fun heven => ?_, fun hodd => ?_⟩
  · have heven : isEven (s.getReg rt) = true := by
      by_contra hodd
      rw [effectiveAddress, dataAddress_settings_odd s (by simpa using hodd)] at ha
      cases ha
    rw [effectiveAddress, dataAddress_settings_even s heven] at ha
    cases ha
    obtain ⟨hword, hframe⟩ := sameMemoryExcept_writeWord (s := s)
      (t := ({ s with mem := Memory.writeWord s.mem (s.getReg rt) (s.getReg rs) } : State).advance) rfl
    exact ⟨rfl, _, execSw_even heven, hword, hframe, fun r => rfl, rfl, rfl⟩
  · exact ⟨_, dataAddress_settings_even s ((isEven_iff _).mpr heven)⟩
  · rw [exec, execSw_settings, (isEven_eq_false_iff _).mpr hodd]
    rfl

/-- Settles O21: the target is checked first, so an odd one faults whether or not the branch is taken. -/
theorem beqResult : Obligations.BeqResult := by
  intro rs rt rd s
  refine ⟨decode_encode settings (.beq rs rt rd), fun heven => ?_, fun hodd => ?_⟩ <;> rw [exec, execBeq_settings]
  · rw [(isEven_iff _).mpr heven]
    refine ⟨_, rfl, ?_⟩
    split
    · exact ⟨fun r => rfl, fun a => rfl, rfl, rfl⟩
    · exact ⟨fun r => rfl, fun a => rfl, rfl, rfl⟩
  · rw [(isEven_eq_false_iff _).mpr hodd]
    rfl

/-- Settles O22: the two clauses are the two answers of `execJr_settings`. -/
theorem jrResult : Obligations.JrResult := by
  intro rd s
  refine ⟨decode_encode settings (.jr rd), fun heven => ?_, fun hodd => ?_⟩ <;> rw [exec, execJr_settings]
  · rw [(isEven_iff _).mpr heven]
    exact ⟨_, rfl, fun r => rfl, fun a => rfl, rfl, rfl⟩
  · rw [(isEven_eq_false_iff _).mpr hodd]
    rfl

/-- Settles O23: the target is the register's old value, for it is read before the link is written. -/
theorem jrlResult : Obligations.JrlResult := by
  intro rd s
  refine ⟨decode_encode settings (.jrl rd), fun heven => ?_, fun hodd => ?_⟩ <;> rw [exec, execJrl_settings]
  · rw [(isEven_iff _).mpr heven]
    obtain ⟨hlink, hregs, hmem, hdelayed⟩ := finish_writesOnlyReg Reg.ra (s.pc + 2#16) s
    exact ⟨_, rfl, ⟨hlink, hregs, hmem, hdelayed⟩, rfl⟩
  · rw [(isEven_eq_false_iff _).mpr hodd]
    rfl

end Sys2Proof
end

section
/-! Proof of the statement on transfers under every setting (41_control_transfer.md R120, R124), and of those on memory
accesses under every setting (20_memory.md R52 to R56, R60). -/

namespace Sys2Proof

open Machine

/-! ### Transfers -/

theorem linkValue_eq (c : Config) (s : State) :
    linkValue c s = s.pc + (if c.linkOffset = .two then 2#16 else 4#16) := by
  unfold linkValue
  cases c.linkOffset <;> rfl

theorem transfer_eq (c : Config) (s : State) (t : Word) :
    s.transfer c t = if c.delaySlot = true then { s with pc := s.pc + 2#16, delayed := some t } else { s with pc := t } :=
  rfl

theorem runDecoded_noSlot {c : Config} (hc : c.delaySlot = false) (run : State → Result State) (s : State) :
    runDecoded c run s = run s := by
  unfold runDecoded
  rw [hc]

/-- Settles O24: the three check one target, and then each is `transfer` to it; in a delay slot and outside one the step is
what `runDecoded` makes of the instruction. -/
theorem transfersUnderEverySetting : Obligations.TransfersUnderEverySetting := by
  intro c rs rt rd s a target taken link f
  refine ⟨fun hodd hfault => ?_, fun hpass => ?_, fun i hfetch => ⟨fun d hslot hwaits => ?_, fun hplain => ?_⟩⟩
  · have hcheck := targetAddress_odd_fault hfault s ((isEven_eq_false_iff a).mpr hodd)
    simp only [execWith, jrUnder, jrlUnder, beqUnder, a, f, hcheck, andThen_fault, and_self]
  · have hcheck : targetAddress c s a = .next target := by
      rw [targetAddress_next (by rwa [isEven_iff]), clearBit0_eq_ofNat]
    simp only [execWith, jrUnder, jrlUnder, beqUnder, a, hcheck, andThen_next, linkValue_eq, transfer_eq, wordsEqual,
      decide_eq_true_eq, setReg_pc]
    exact ⟨rfl, rfl, rfl⟩
  · rw [stepWith_fetched hfetch, runDecoded_slot hslot _ hwaits]
    exact ⟨fun t ht => by rw [ht, andThen_next], fun e he => by rw [he, andThen_fault]⟩
  · rw [stepWith_fetched hfetch]
    rcases hplain with hslot | hnone
    · exact runDecoded_noSlot hslot _ s
    · exact runDecoded_none c _ hnone

/-! ### Memory -/

/-- Settles O38: both accesses go to the words their checks give, which are the same word or two different ones. -/
theorem loadGivesLastStore : Obligations.LoadGivesLastStore := by
  intro c s t a v hwrite
  obtain ⟨w, haddr, himpl, rfl⟩ := memWrite_eq_next_iff.mp hwrite
  have hcheck (b : Word) : dataAddress c { s with mem := Memory.writeWord s.mem w v } b = dataAddress c s b := rfl
  refine ⟨?_, fun b hne => ?_⟩
  · rw [memRead_of_dataAddress ((hcheck a).trans haddr)]
    exact readWord_value himpl (by simp [readWord_writeWord])
  · rw [memRead, memRead, hcheck]
    cases hb : dataAddress c s b with
    | next w' =>
      have hw : w' ≠ w := by
        rintro rfl
        exact hne (hb.trans haddr.symm)
      simp only [andThen_next, readWord_eq, wordAt_withMem, readWord_writeWord, if_neg hw, readWord_mem]
    | fault e => rfl
    | refused e => rfl

/-- Settles O40: a read and a write make one alignment check, whose answer is the setting's. -/
theorem oddDataAddressSettings : Obligations.OddDataAddressSettings := by
  intro c s a hodd
  have hfalse := (isEven_eq_false_iff a).mpr hodd
  refine ⟨fun hfault => ?_, fun hignore => ?_⟩
  · have hcheck := dataAddress_odd_fault hfault s hfalse
    exact ⟨by rw [memRead, hcheck, andThen_fault], fun v => by rw [memWrite, hcheck, andThen_fault]⟩
  · have hcheck : dataAddress c s a = dataAddress c s (BitVec.ofNat 16 (a.toNat - 1)) := by
      have hb : BitVec.ofNat 16 (a.toNat - 1) = a &&& 0xFFFE#16 := by rw [clearBit0_eq_ofNat, hodd]
      rw [hb, dataAddress_next (.inr hignore), dataAddress_next (.inr hignore), clearBit0_of_even (clearBit0_even a)]
    exact ⟨by rw [memRead, memRead, hcheck], fun v => by rw [memWrite, memWrite, hcheck]⟩

/-- What `lw` answers where its address passes the alignment check. -/
theorem execWith_lw {c : Config} {s : State} {rt : Reg} {w : Word} (h : dataAddress c s (s.getReg rt) = .next w) (rs : Reg) :
    execWith c (.lw rs rt) s = andThen (readWord c s w) fun v => finish rs v s := by
  rw [execWith, lwUnder, effectiveAddress, memRead_of_dataAddress h]

/-- What `sw` answers where its address passes the alignment check. -/
theorem execWith_sw {c : Config} {s : State} {rt : Reg} {w : Word} (h : dataAddress c s (s.getReg rt) = .next w) (rs : Reg) :
    execWith c (.sw rs rt) s =
      andThen (implemented c s w) fun w => .next ({ s with mem := Memory.writeWord s.mem w (s.getReg rs) } : State).advance := by
  rw [execWith, swUnder, effectiveAddress, memWrite_of_dataAddress h]
  cases implemented c s w <;> rfl

/-- A fetch from an even pc is the read of the word there, so its faults are that read's. -/
theorem stepWith_fault_of_readWord {c : Config} {s : State} {e : Fault} (heven : isEven s.pc = true)
    (h : readWord c s s.pc = .fault e) : stepWith c s = .fault e := by
  simp [stepWith, fetchInstr, fetch, heven, h]

/-- Settles O41: alignment, existence and value are checked in this order (R197 (4) to (6)), by the lemmas on `dataAddress`,
`implemented` and `readWord`. -/
theorem memoryChecksUnderEverySetting : Obligations.MemoryChecksUnderEverySetting := by
  intro c rs rt s a w
  refine ⟨fun hpc => ?_, fun hodd hfault => ?_, fun hpass => ?_⟩
  · have heven := (isEven_iff _).mpr hpc
    exact ⟨fun habsent => stepWith_fault_of_readWord heven (readWord_absent habsent s),
      fun himpl hnone => stepWith_fault_of_readWord heven (readWord_noValue himpl hnone)⟩
  · have hcheck := dataAddress_odd_fault hfault s ((isEven_eq_false_iff a).mpr hodd)
    exact ⟨by rw [execWith, lwUnder, effectiveAddress, memRead, hcheck, andThen_fault, andThen_fault],
      by rw [execWith, swUnder, effectiveAddress, memWrite, hcheck, andThen_fault, andThen_fault]⟩
  · have hcheck : dataAddress c s a = .next w := by
      rw [dataAddress_next (by rwa [isEven_iff]), clearBit0_eq_ofNat]
    rw [execWith_lw hcheck, execWith_sw hcheck]
    refine ⟨fun habsent => ?_, fun himpl => ⟨fun hnone => ?_, fun v hv => ?_, ?_⟩⟩
    · rw [readWord_absent habsent, implemented_absent habsent]
      exact ⟨rfl, rfl⟩
    · rw [readWord_noValue himpl hnone, andThen_fault]
    · rw [readWord_value himpl hv, andThen_next]
      exact exists_finish_eq_next rs v s
    · rw [implemented_present himpl, andThen_next]
      obtain ⟨hword, hframe⟩ := sameMemoryExcept_writeWord (s := s)
        (t := ({ s with mem := Memory.writeWord s.mem w (s.getReg rs) } : State).advance) rfl
      exact ⟨_, rfl, hword, hframe, fun r => rfl, rfl, rfl⟩

end Sys2Proof
end

section
/-! Proofs of the rules of the whole machine (10_state.md R21, R24, R26, R30): what an instruction may change and what it
depends on. -/

namespace Sys2Proof

open Machine

/-- Settles O25: of the five things an instruction can do, two write a register, and it is the destination. -/
theorem onlyDestinationRegisterChanges : Obligations.OnlyDestinationRegisterChanges := by
  intro i s t hexec r hr
  rcases exec_cases hexec with ⟨d, v, hdest, -, -, rfl⟩ | ⟨a, -, -, -, rfl⟩ | ⟨a, -, hdest, -, rfl⟩ | ⟨-, -, rfl⟩ |
      ⟨a, v, -, -, -, rfl⟩
  · rw [getReg_advance, getReg_setReg_ne]
    rintro rfl
    exact hr hdest
  · rfl
  · rw [getReg_withPc, getReg_setReg_ne]
    rintro rfl
    exact hr hdest
  · rfl
  · rfl

/-- Settles O27: of the five things an instruction can do, only `sw`'s touches memory. -/
theorem onlySwChangesMemory : Obligations.OnlySwChangesMemory := by
  intro i s t hexec hsw
  apply sameMemory_of_mem_eq
  rcases exec_cases hexec with ⟨d, v, -, -, -, rfl⟩ | ⟨a, -, -, -, rfl⟩ | ⟨a, -, -, -, rfl⟩ | ⟨-, -, rfl⟩ |
    ⟨a, v, -, -, hop, -⟩
  · exact setReg_mem s d v
  · rfl
  · exact setReg_mem s _ _
  · rfl
  · exact absurd hop hsw

/-- Settles O28: every way to complete that is open to the other thirteen ends in `advance`. -/
theorem pcAdvancesUnlessTransfer : Obligations.PcAdvancesUnlessTransfer := by
  intro i s t hexec hbeq hjr hjrl
  have hadvance : t.pc = s.pc + 2#16 := by
    rcases exec_cases hexec with ⟨d, v, -, -, -, rfl⟩ | ⟨a, -, -, hop | hop, -⟩ | ⟨a, -, -, hop, -⟩ | ⟨-, hop, -⟩ |
      ⟨a, v, -, -, -, rfl⟩
    · simp
    · exact absurd hop hbeq
    · exact absurd hop hjr
    · exact absurd hop hjrl
    · exact absurd hop hbeq
    · rfl
  rw [hadvance, BitVec.toNat_add]
  rfl

/-! ### An instruction depends on its sources -/

/-- Two answers that agree on the pc, on memory, on the destination register `d`, if there is one, and on the fault. -/
def AnswersAgree (d : Option Reg) (x y : Result State) : Prop :=
  (∀ t, x = .next t →
    ∃ v, y = .next v ∧ v.pc = t.pc ∧ v.mem = t.mem ∧ ∀ r, d = some r → v.getReg r = t.getReg r) ∧
  ∀ f, x = .fault f → y = .fault f

theorem answersAgree_fault (d : Option Reg) (f : Fault) : AnswersAgree d (.fault f) (.fault f) :=
  ⟨fun _ h => (by cases h), fun _ h => h⟩

theorem answersAgree_next {d : Option Reg} {t v : State} (hpc : v.pc = t.pc) (hmem : v.mem = t.mem)
    (hdest : ∀ r, d = some r → v.getReg r = t.getReg r) : AnswersAgree d (.next t) (.next v) := by
  refine ⟨fun t' h => ?_, fun f h => by cases h⟩
  cases h
  exact ⟨v, rfl, hpc, hmem, hdest⟩

/-- One value written to one register reads alike in both states, also where it is discarded. -/
theorem getReg_setReg_agree (s u : State) (d : Reg) (v : Word) : (u.setReg d v).getReg d = (s.setReg d v).getReg d := by
  by_cases hd : d = 0#4
  · simp [hd]
  · rw [getReg_setReg_same u hd, getReg_setReg_same s hd]

theorem answersAgree_finish {s u : State} (hpc : u.pc = s.pc) (hmem : u.mem = s.mem) (d : Reg) (v : Word) :
    AnswersAgree (some d) (finish d v s) (finish d v u) := by
  refine answersAgree_next (by simp [hpc]) (by simp [hmem]) fun r hr => ?_
  cases hr
  exact getReg_setReg_agree s u d v

/-- Settles O26: the registers an instruction reads enter its answer by their values alone. -/
theorem onlySourceRegistersMatter : Obligations.OnlySourceRegistersMatter := by
  intro i s u hsources hpc hmem
  change AnswersAgree (destOf i) (exec i s) (exec i u)
  cases i with
  | add rs rt rd | and rs rt rd | nor rs rt rd | or rs rt rd | slt rs rt rd | xor rs rt rd | sll rs rt rd | srl rs rt rd
  | bsr rs rt rd =>
    have hrs : u.getReg rs = s.getReg rs := hsources rs (by simp [sourcesOf])
    have hrt : u.getReg rt = s.getReg rt := hsources rt (by simp [sourcesOf])
    simpa only [destOf, exec, execAdd, execAnd, execNor, execOr, execSlt, sltUnder, execXor, execSll, execSrl, execBsr, hrs, hrt]
      using answersAgree_finish hpc hmem rd _
  | lui rs imm => exact answersAgree_finish hpc hmem rs _
  | ori rs imm =>
    have hrs : u.getReg rs = s.getReg rs := hsources rs (by simp [sourcesOf])
    simpa only [destOf, exec, execOri, hrs] using answersAgree_finish hpc hmem rs _
  | beq rs rt rd =>
    have hrs : u.getReg rs = s.getReg rs := hsources rs (by simp [sourcesOf])
    have hrt : u.getReg rt = s.getReg rt := hsources rt (by simp [sourcesOf])
    have hrd : u.getReg rd = s.getReg rd := hsources rd (by simp [sourcesOf])
    simp only [exec, execBeq_settings, hrs, hrt, hrd, hpc]
    split
    · split
      · exact answersAgree_next rfl hmem (by simp [destOf])
      · exact answersAgree_next (by simp [hpc]) hmem (by simp [destOf])
    · exact answersAgree_fault _ _
  | jr rd =>
    have hrd : u.getReg rd = s.getReg rd := hsources rd (by simp [sourcesOf])
    simp only [exec, execJr_settings, hrd, hpc]
    split
    · exact answersAgree_next rfl hmem (by simp [destOf])
    · exact answersAgree_fault _ _
  | jrl rd =>
    have hrd : u.getReg rd = s.getReg rd := hsources rd (by simp [sourcesOf])
    simp only [exec, execJrl_settings, hrd, hpc]
    split
    · refine answersAgree_next rfl (by simp [hmem]) fun r hr => ?_
      cases hr
      exact getReg_setReg_agree s u _ _
    · exact answersAgree_fault _ _
  | lw rs rt =>
    have hrt : u.getReg rt = s.getReg rt := hsources rt (by simp [sourcesOf])
    simp only [exec, execLw_settings, hrt, hpc, hmem]
    split
    · split
      · exact answersAgree_finish hpc hmem rs _
      · exact answersAgree_fault _ _
    · exact answersAgree_fault _ _
  | sw rs rt =>
    have hrs : u.getReg rs = s.getReg rs := hsources rs (by simp [sourcesOf])
    have hrt : u.getReg rt = s.getReg rt := hsources rt (by simp [sourcesOf])
    simp only [exec, execSw_settings, hrs, hrt, hpc, hmem]
    split
    · exact answersAgree_next rfl rfl (by simp [destOf])
    · exact answersAgree_fault _ _

/-! ### Register 0 as the destination -/

/-- Settles O29: the write is discarded, so `finish` is `advance` alone; before it `lw` makes its read. -/
theorem zeroDestinationIsDiscarded : Obligations.ZeroDestinationIsDiscarded := by
  intro i s hdest
  have hadvance : ∃ t, (.next s.advance : Result State) = .next t ∧ SameRegs s t ∧ SameMemory s t ∧ t.getReg 0#4 = 0#16 ∧
      t.pc = s.pc + 2#16 ∧ t.delayed = s.delayed :=
    ⟨_, rfl, fun r => rfl, fun a => rfl, rfl, rfl, rfl⟩
  have hlw (rt : Reg) : exec (.lw 0#4 rt) s = andThen (memRead settings s (s.getReg rt)) fun _ => .next s.advance := rfl
  refine ⟨?_, fun hread => ?_⟩
  · rintro rt rfl hnone t hexec
    obtain ⟨v, hv, -⟩ := execLw_next hexec
    exact hnone v hv
  · cases i with
    | lw rs rt =>
      cases hdest
      obtain ⟨v, hv⟩ := hread rt rfl
      rw [hlw, hv]
      exact hadvance
    | beq | jr | sw => cases hdest
    | jrl => exact absurd (Option.some.inj hdest) (by decide)
    | add | and | lui | bsr | nor | or | ori | sll | slt | xor | srl =>
      cases hdest
      exact hadvance

end Sys2Proof
end

section
/-! Proofs of the statements on steps (00_scope.md R11, 20_memory.md R63, 60_exceptions.md R193, R197, R206): from an even pc
with a word there, a step checks the word's should-be-zero fields and runs the instruction it names. -/

namespace Sys2Proof

open Machine

/-! ### What a step answers -/

theorem step_oddPc {s : State} (h : isEven s.pc = false) : step s = .refused (.oddProgramCounter s.pc) := by
  simp [step, fetchInstr, fetch, h]

theorem step_noWord {s : State} (heven : isEven s.pc = true) (hword : s.wordAt s.pc = none) :
    step s = .fault (.uninitialisedRead s.pc s.pc) := by
  rw [← stepWith_settings]
  exact stepWith_fault_of_readWord heven (readWord_noValue heven hword)

theorem step_word {s : State} {w : Word} (heven : isEven s.pc = true) (hword : s.wordAt s.pc = some w) :
    step s = if sbzZero w then exec (namedInstr w) s else .fault (.reservedEncoding w s.pc) := by
  have hfetch : fetch settings s = .next w := by rw [fetch, if_pos heven, readWord_value heven hword]
  rw [step, fetchInstr, hfetch, andThen_next, decodeFetched, decode_eq_checkSbz]
  cases sbzZero w <;> rfl

theorem step_of_decode {s : State} {w : Word} {i : Instr} (heven : isEven s.pc = true) (hword : s.wordAt s.pc = some w)
    (hdec : decode settings w = .ok i) : step s = exec i s := by
  obtain ⟨rfl, hsbz⟩ := decode_settings_eq_ok_iff.mp hdec
  rw [step_word heven hword, if_pos hsbz]

theorem step_of_encode {s : State} {i : Instr} (heven : isEven s.pc = true) (hword : s.wordAt s.pc = some (encode i)) :
    step s = exec i s :=
  step_of_decode heven hword (decode_encode settings i)

/-! ### The faults in their order (R197) -/

/-- An outcome is the fault that is expected, or a next state where none is. -/
def MeetsExpectation (expected : Option Fault) (r : Result State) : Prop :=
  match expected with
  | some f => r = .fault f
  | none => ∃ t, r = .next t

theorem fault_iff_of_meetsExpectation {expected : Option Fault} {r : Result State} (h : MeetsExpectation expected r) :
    (∀ f, r = .fault f ↔ expected = some f) ∧ (expected = none → ∃ t, r = .next t) := by
  cases expected with
  | none =>
    obtain ⟨t, rfl⟩ := h
    simp
  | some e =>
    cases h
    simp

/-- The register fields of a word as R197's conditions write them. -/
theorem ofNat_rdField (w : Word) : BitVec.ofNat 4 (w.toNat % 0x10) = rdField w := by
  obtain ⟨-, -, hrd, -⟩ := toNat_fields w
  rw [← hrd, BitVec.ofNat_toNat, BitVec.setWidth_eq]

theorem ofNat_rtField (w : Word) : BitVec.ofNat 4 (w.toNat / 0x10 % 0x10) = rtField w := by
  obtain ⟨-, hrt, -, -⟩ := toNat_fields w
  rw [← hrt, BitVec.ofNat_toNat, BitVec.setWidth_eq]

theorem opcode_number_eq_iff (w : Word) (op : Opcode) : w.toNat / 0x1000 = op.bits.toNat ↔ opcodeOf w = op := by
  rw [← opField_eq_bits_iff, ← BitVec.toNat_inj, opcode_number, opField_of_opcodeOf]

/-- The checks R197 (4) to (6) makes of the instruction a word names, by its opcode. -/
theorem exec_meetsExpectation (w : Word) (s : State) :
    MeetsExpectation
      (if (opcodeOf w = .beq ∨ opcodeOf w = .jr ∨ opcodeOf w = .jrl) ∧ (s.getReg (rdField w)).toNat % 2 = 1 then
        some (.misalignedTarget (s.getReg (rdField w)) s.pc)
      else if (opcodeOf w = .lw ∨ opcodeOf w = .sw) ∧ (s.getReg (rtField w)).toNat % 2 = 1 then
        some (.misalignedData (s.getReg (rtField w)) s.pc)
      else if opcodeOf w = .lw ∧ s.wordAt (s.getReg (rtField w)) = none then
        some (.uninitialisedRead (s.getReg (rtField w)) s.pc)
      else none)
      (exec (namedInstr w) s) := by
  unfold namedInstr
  cases opcodeOf w with
  | beq | jr | jrl =>
    simp only [exec, execBeq_settings, execJr_settings, execJrl_settings, ← isEven_eq_false_iff]
    cases isEven (s.getReg (rdField w)) <;> simp [MeetsExpectation]
  | sw =>
    simp only [exec, execSw_settings, ← isEven_eq_false_iff]
    cases isEven (s.getReg (rtField w)) <;> simp [MeetsExpectation]
  | lw =>
    simp only [exec, execLw_settings, ← isEven_eq_false_iff, readWord_mem]
    cases isEven (s.getReg (rtField w)) <;> cases s.wordAt (s.getReg (rtField w)) <;> simp [MeetsExpectation]
  | add | and | lui | bsr | nor | or | ori | sll | slt | xor | srl => exact ⟨_, rfl⟩

/-- A step meets R197's list: the fetch and the decode are its first two checks, the others are the instruction's. -/
theorem step_meetsExpectation {s : State} (heven : isEven s.pc = true) : MeetsExpectation (expectedFault s) (step s) := by
  unfold expectedFault
  cases hword : s.wordAt s.pc with
  | none => exact step_noWord heven hword
  | some w =>
    have hbeq : w.toNat / 0x1000 = 0x2 ↔ opcodeOf w = .beq := opcode_number_eq_iff w .beq
    have hjr : w.toNat / 0x1000 = 0x3 ↔ opcodeOf w = .jr := opcode_number_eq_iff w .jr
    have hjrl : w.toNat / 0x1000 = 0x4 ↔ opcodeOf w = .jrl := opcode_number_eq_iff w .jrl
    have hlw : w.toNat / 0x1000 = 0x6 ↔ opcodeOf w = .lw := opcode_number_eq_iff w .lw
    have hsw : w.toNat / 0x1000 = 0xF ↔ opcodeOf w = .sw := opcode_number_eq_iff w .sw
    simp only [ofNat_rdField, ofNat_rtField, ← sbzZero_eq_false_iff, step_word heven hword]
    cases sbzZero w with
    | false => rfl
    | true => simpa [hbeq, hjr, hjrl, hlw, hsw] using exec_meetsExpectation w s

/-! ### The statements -/

/-- Settles O30: a step meets the expectation of R197's list, and an outcome that meets it is a fault exactly where one is
expected. -/
theorem stepFaultsExactlyInOrder : Obligations.StepFaultsExactlyInOrder := fun _ =>
  ⟨fun heven => fault_iff_of_meetsExpectation (step_meetsExpectation ((isEven_iff _).mpr heven)),
    fun hodd => step_oddPc ((isEven_eq_false_iff _).mpr hodd)⟩

/-- Settles O31: a word that decodes has no should-be-zero field that is not zero. -/
theorem stepRunsDecodedInstruction : Obligations.StepRunsDecodedInstruction := fun _ _ _ heven hword hdec =>
  step_of_decode ((isEven_iff _).mpr heven) hword hdec

/-- Settles O32: the word is reserved because a should-be-zero field of it is not zero. -/
theorem stepFaultsOnReservedEncoding : Obligations.StepFaultsOnReservedEncoding := by
  intro s w heven hword hreserved
  obtain ⟨hsbz, -⟩ := decode_eq_reserved_iff.mp hreserved
  rw [step_word ((isEven_iff _).mpr heven) hword, hsbz]
  rfl

/-- Settles O33: the store leaves the word of `i` where the next fetch reads. -/
theorem storeIsSeenByNextFetch : Obligations.StoreIsSeenByNextFetch := by
  intro s rs rt i hpc hword haddr hvalue
  have heven := (isEven_iff _).mpr hpc
  have hnext : isEven (s.getReg rt) = true := haddr ▸ isEven_add_two heven
  refine ⟨_, (step_of_encode heven hword).trans (execSw_even hnext), rfl, fun r => rfl, ?_⟩
  refine step_of_encode (isEven_add_two heven) ?_
  simp [readWord_writeWord, haddr, hvalue]

/-- At the end of a run the instruction about to execute goes to its own address. -/
theorem step_of_atEnd {s : State} (h : atEnd s = true) : step s = .next s := by
  unfold atEnd at h
  split at h
  · next rd hfetch =>
    obtain ⟨w, heven, -, -⟩ := fetchInstr_next hfetch
    have htarget : s.getReg rd = s.pc := of_decide_eq_true h
    rw [step, hfetch, andThen_next, runDecoded_settings, exec, execJr_settings, htarget, if_pos heven]
  · next rs rt rd hfetch =>
    obtain ⟨w, heven, -, -⟩ := fetchInstr_next hfetch
    simp only [wordsEqual, Bool.and_eq_true, decide_eq_true_eq] at h
    obtain ⟨hequal, htarget⟩ := h
    rw [step, hfetch, andThen_next, runDecoded_settings, exec, execBeq_settings, htarget, if_pos heven, if_pos hequal]
  · cases h

/-- A run of one step more is a run from the state the first step gives. -/
theorem core_run_succ {s t : State} (h : step s = .next t) (n : Nat) :
    Sys2Proof.core.run (n + 1) s = Sys2Proof.core.run n t := by
  change Sys2Proof.core.step s = .next t at h
  simp only [Host.Core.run, h]

/-- Settles O34, by induction on the number of steps. -/
theorem endOfRunIsFixedPoint : Obligations.EndOfRunIsFixedPoint := by
  intro s hend
  have hstep := step_of_atEnd hend
  refine ⟨hstep, fun n => ?_⟩
  induction n with
  | zero => rfl
  | succ n ih => exact (core_run_succ hstep n).trans ih

end Sys2Proof
end

section
/-! Proofs of the invariants (10_state.md R27, R30) and of the statements on reset and launch (R32, 70_reset_and_hazards.md
R220, R221). -/

namespace Sys2Proof

open Machine

/-! ### Every step keeps the invariant -/

/-- An instruction that completes from a state that meets the invariant leaves one that does: the pc is two further or at a
target that passed its check, and a store goes to an even address. -/
theorem exec_keepsInv {i : Instr} {s t : State} (hinv : s.Inv) (hexec : exec i s = .next t) : t.Inv := by
  obtain ⟨hpc, hmem, hdelayed⟩ := hinv
  have hnext := isEven_add_two hpc
  rcases exec_cases hexec with ⟨d, v, -, -, -, rfl⟩ | ⟨a, heven, -, -, rfl⟩ | ⟨a, heven, -, -, rfl⟩ | ⟨-, -, rfl⟩ |
    ⟨a, v, heven, -, -, rfl⟩
  · exact ⟨by simpa using hnext, by simpa using hmem, by simpa using hdelayed⟩
  · exact ⟨heven, hmem, hdelayed⟩
  · exact ⟨heven, by simpa using hmem, by simpa using hdelayed⟩
  · exact ⟨hnext, hmem, hdelayed⟩
  · exact ⟨hnext, writeWord_wf hmem heven v, hdelayed⟩

/-- Settles O35: a step that gives a next state runs an instruction that completes. -/
theorem stepKeepsInvariant : Obligations.StepKeepsInvariant := by
  intro s t hinv hstep
  obtain ⟨i, -, hexec⟩ := step_next hstep
  exact exec_keepsInv hinv hexec

/-! ### Launches -/

/-- The image check as a statement about each word of the image. -/
theorem imageOk_iff (c : Config) (image : List (Word × Word)) :
    imageOk c image = true ↔ ∀ p ∈ image, isEven p.1 = true ∧ c.memImplemented p.1 = true := by
  simp [imageOk]

/-- A launch is accepted exactly where its three checks hold, with the state after reset. -/
theorem launch_eq_ok_iff {c : Config} {s : State} :
    launch c = .ok s ↔ isEven c.resetPc = true ∧ c.memImplemented c.resetPc = true ∧ imageOk c c.memInit = true ∧
      State.ofConfig c = s := by
  unfold launch
  cases isEven c.resetPc <;> cases c.memImplemented c.resetPc <;> cases imageOk c c.memInit <;> simp

/-- The state after reset of parameters that a launch accepts meets the invariant. -/
theorem ofConfig_inv {c : Config} (hpc : isEven c.resetPc = true) (himage : imageOk c c.memInit = true) :
    (State.ofConfig c).Inv :=
  have heven : ∀ p ∈ c.memInit, isEven p.1 = true := fun p hp => And.left ((imageOk_iff c _).mp himage p hp)
  ⟨hpc, load_wf _ heven [] ⟨.nil, by simp⟩, rfl⟩

/-- Settles O36: `settings` are parameters that a launch accepts. -/
theorem resetMeetsInvariant : Obligations.ResetMeetsInvariant := ofConfig_inv rfl rfl

/-- Settles O37: a launched state meets the invariant and every step keeps it, by induction on the steps. -/
theorem launchedRunsKeepInvariant : Obligations.LaunchedRunsKeepInvariant := by
  intro image s t hlaunch hreach
  obtain ⟨hpc, -, himage, rfl⟩ := launch_eq_ok_iff.mp hlaunch
  induction hreach with
  | refl => exact ofConfig_inv hpc himage
  | step _ hstep ih => exact stepKeepsInvariant _ _ ih hstep

/-! ### What a launch leaves -/

theorem getReg_ofConfig (c : Config) (r : Reg) :
    (State.ofConfig c).getReg r = if r = 0#4 then 0#16 else c.resetGpr r := by
  by_cases hr : r = 0#4
  · rw [hr, getReg_zero, if_pos rfl]
  · have hpos : r.toNat ≠ 0 := fun h => hr (BitVec.eq_of_toNat_eq h)
    have hindex : BitVec.ofNat 4 (r.toNat - 1 + 1) = r := by
      rw [Nat.sub_add_cancel (by omega), BitVec.ofNat_toNat, BitVec.setWidth_eq]
    simp [State.getReg, State.ofConfig, hr, hindex]

/-- A word that an image does not list is as it was before the image was loaded. -/
theorem readWord_load_of_notMem {image : List (Word × Word)} {a : Word} (h : a ∉ image.map Prod.fst) (m : Memory) :
    Memory.readWord (Memory.load m image) a = Memory.readWord m a := by
  induction image generalizing m with
  | nil => rfl
  | cons p rest ih =>
    simp only [List.map_cons, List.mem_cons, not_or] at h
    obtain ⟨hhead, hrest⟩ := h
    rw [Memory.load, ih hrest, readWord_writeWord, if_neg hhead]

/-- Every word of an image of distinct addresses is in memory once the image is loaded. -/
theorem readWord_load_of_mem {image : List (Word × Word)} (hdistinct : (image.map Prod.fst).Nodup) {p : Word × Word}
    (hp : p ∈ image) (m : Memory) : Memory.readWord (Memory.load m image) p.1 = some p.2 := by
  induction image generalizing m with
  | nil => cases hp
  | cons q rest ih =>
    obtain ⟨hhead, hrest⟩ := List.nodup_cons.mp hdistinct
    rcases List.mem_cons.mp hp with rfl | hp
    · rw [Memory.load, readWord_load_of_notMem hhead, readWord_writeWord, if_pos rfl]
    · exact ih hrest hp _

/-- Settles O42: reset is `State.ofConfig` of `settings`, which has no image. -/
theorem resetState : Obligations.ResetState :=
  ⟨rfl, rfl, fun _ => rfl, fun r => by simp [State.reset, getReg_ofConfig], rfl⟩

/-- Settles O43: the launch makes its checks in this order, and what it accepts is `State.ofConfig`. -/
theorem launchLoadsImage : Obligations.LaunchLoadsImage := by
  intro c
  refine ⟨fun hodd => ?_, fun heven habsent => ?_, fun heven himpl => ⟨fun hbad => ?_, fun hgood => ?_⟩, fun s hok => ?_⟩
  · simp [launch, (isEven_eq_false_iff _).mpr hodd]
  · simp [launch, (isEven_iff _).mpr heven, habsent]
  · obtain ⟨p, hp, hbad⟩ := hbad
    have himage : imageOk c c.memInit = false := by
      rw [← Bool.not_eq_true, imageOk_iff]
      intro hall
      obtain ⟨hpEven, hpImpl⟩ := hall p hp
      rcases hbad with hodd | habsent
      · rw [(isEven_eq_false_iff _).mpr hodd] at hpEven
        cases hpEven
      · rw [habsent] at hpImpl
        cases hpImpl
    simp [launch, (isEven_iff _).mpr heven, himpl, himage]
  · refine ⟨_, launch_eq_ok_iff.mpr ⟨(isEven_iff _).mpr heven, himpl, (imageOk_iff c _).mpr fun p hp => ?_, rfl⟩⟩
    obtain ⟨hpEven, hpImpl⟩ := hgood p hp
    exact ⟨(isEven_iff _).mpr hpEven, hpImpl⟩
  · obtain ⟨-, -, -, rfl⟩ := launch_eq_ok_iff.mp hok
    exact ⟨rfl, getReg_ofConfig c, rfl, fun hdistinct p hp => readWord_load_of_mem hdistinct hp [],
      fun a ha => readWord_load_of_notMem ha []⟩

end Sys2Proof
end

section
/-! Proofs of the statements on the CPU's cycles (70_reset_and_hazards.md R230 to R232): five clocks fetch and decode the
instruction, and the clocks after them do to the architectural state what the instruction's rule says. -/

namespace Sys2Proof

open Machine

/-! ### A decoded instruction and the target that waits -/

@[simp] theorem getReg_withDelayed (s : State) (d : Option Word) (r : Reg) :
    ({ s with delayed := d } : State).getReg r = s.getReg r := rfl

/-- What an instruction is run on in `runDecoded` differs from the state in the waiting target alone, so two meanings that
agree up to it run alike. -/
theorem runDecoded_congr {c : Config} {run run' : State → Result State} {s : State}
    (h : ∀ d, run { s with delayed := d } = run' { s with delayed := d }) : runDecoded c run s = runDecoded c run' s := by
  have hself : run s = run' s := h s.delayed
  unfold runDecoded
  split
  · rw [h none]
  · exact hself

/-- A check that does not look at the waiting target can be made before the instruction is run. -/
theorem runDecoded_of_check {α : Type} {c : Config} {run : State → Result State} {s : State} {r : Result α}
    {rest : α → State → Result State}
    (h : ∀ d, run { s with delayed := d } = andThen r fun a => rest a { s with delayed := d }) :
    runDecoded c run s = andThen r fun a => runDecoded c (rest a) s := by
  have hchecked : runDecoded c (fun s => andThen r fun a => rest a s) s = andThen r fun a => runDecoded c (rest a) s := by
    cases r with
    | next a => rfl
    | fault e | refused e => unfold runDecoded; split <;> rfl
  exact (runDecoded_congr h).trans hchecked

theorem andThen_assoc {α β γ : Type} (r : Result α) (f : α → Result β) (g : β → Result γ) :
    andThen (andThen r f) g = andThen r fun a => andThen (f a) g := by
  cases r <;> rfl

@[simp] theorem andThen_eta {α : Type} (r : Result α) : andThen r .next = r := by
  cases r <;> rfl

/-! ### Clock by clock -/

theorem clocks_add (c : Config) (m n : Nat) (u : Cpu) :
    Cpu.clocks c (m + n) u = andThen (Cpu.clocks c m u) (Cpu.clocks c n) := by
  induction m generalizing u with
  | zero => simp [Cpu.clocks]
  | succ m ih =>
    rw [Nat.succ_add, Cpu.clocks, Cpu.clocks, andThen_assoc]
    exact congrArg _ (funext ih)

/-- The CPU at Execute with the word `w` fetched and decoded (R231, cycles 2 to 6). -/
def fetchedCpu (u : Cpu) (w : Word) : Cpu :=
  { u with
    cycle := .c7
    ir := w
    memOut := w
    memUnit := .memReady4Data
    signals := { { u.signals.atFetch with memDone := true }.atDecode with writeIR := false } }

/-- Fetch and Decode take five clocks, and leave the architectural state as it was. -/
theorem clocks_fetch {c : Config} {u : Cpu} {w : Word} {i : Instr} (hcycle : u.cycle = .c2)
    (hfetch : fetch c u.arch = .next w) (hdec : decode c w = .ok i) : Cpu.clocks c 5 u = .next (fetchedCpu u w) := by
  simp [Cpu.clocks, Cpu.clock, hcycle, hfetch, decodeFetched, hdec, fetchedCpu]

/-- The CPU at Execute, its signals set for its opcode (cycle 7). -/
def executingCpu (u : Cpu) : Cpu := { u with signals := u.signals.atExecute (opcodeOf u.ir), memUnit := .memReady4Next }

/-- The CPU at Write Back, its signals set for its opcode (cycle 11). -/
def writingBackCpu (u : Cpu) : Cpu :=
  { u with signals := u.signals.atWriteBack (opcodeOf u.ir), memUnit := .memReady4Next, cycle := .c2 }

theorem clocks_writeBack (c : Config) {u : Cpu} (hcycle : u.cycle = .c11) :
    Cpu.clocks c 1 u = andThen ((writingBackCpu u).latch c) fun s => .next { writingBackCpu u with arch := s } := by
  simp only [Cpu.clocks, Cpu.clock, hcycle, if_true]
  exact andThen_eta _

/-- Execute and Write Back of an instruction without a memory period (R231). -/
theorem clocks_execute_noMemory {c : Config} {u : Cpu} (hcycle : u.cycle = .c7)
    (hop : usesMemory (opcodeOf u.ir) = false) :
    Cpu.clocks c 2 u =
      andThen ((executingCpu u).checkTarget c) fun _ => Cpu.clocks c 1 { executingCpu u with cycle := .c11 } := by
  rw [Cpu.clocks, Cpu.clock, hcycle]
  simp only [hop]
  rw [andThen_assoc]
  rfl

/-- Execute, the memory period and Write Back of `lw` and `sw` (R231). -/
theorem clocks_execute_memory {c : Config} {u : Cpu} (hcycle : u.cycle = .c7) (hop : usesMemory (opcodeOf u.ir) = true) :
    Cpu.clocks c 5 u =
      andThen ((executingCpu u).checkTarget c) fun _ =>
        andThen (({ executingCpu u with cycle := .c10, memUnit := .memReady4Ctrl } : Cpu).access c) fun v =>
          Cpu.clocks c 1 { v with memUnit := .memReady4Data, cycle := .c11 } := by
  simp only [Cpu.clocks, Cpu.clock, hcycle, hop, if_true, andThen_assoc, andThen_next, executingCpu]
  rfl

/-! ### Refinement of outcomes -/

/-- The CPU's outcome refines the instruction's: it is at Fetch again with the next state that the instruction has, and faults
where the instruction does. -/
def Refines (x : Result Cpu) (y : Result State) : Prop :=
  (∀ t, y = .next t → ∃ v, x = .next v ∧ v.arch = t ∧ v.cycle = .c2) ∧ ∀ f, y = .fault f → x = .fault f

/-- A check that both make first. -/
theorem refines_andThen {α : Type} {r : Result α} {f : α → Result Cpu} {g : α → Result State}
    (h : ∀ a, r = .next a → Refines (f a) (g a)) : Refines (andThen r f) (andThen r g) := by
  cases r with
  | next a => exact h a rfl
  | fault e => exact ⟨fun _ ht => (by cases ht), fun _ hf => (by cases hf; rfl)⟩
  | refused e => exact ⟨fun _ ht => (by cases ht), fun _ hf => (by cases hf)⟩

/-- Write Back does what the latched signals say. -/
theorem refines_writeBack (c : Config) {u : Cpu} (hcycle : u.cycle = .c11) :
    Refines (Cpu.clocks c 1 u) ((writingBackCpu u).latch c) := by
  rw [clocks_writeBack c hcycle, ← andThen_eta ((writingBackCpu u).latch c), andThen_assoc]
  refine refines_andThen fun s _ => ⟨fun t ht => ?_, fun f hf => by cases hf⟩
  cases ht
  exact ⟨_, rfl, rfl, rfl⟩

/-! ### What the signals make of each instruction -/

/-- The ALU of `lui` (R132): the zero-extended immediate moved up is its upper-immediate operand. -/
theorem zeroExtended_shiftLeft (imm : Byte) : zeroExtended imm <<< 8 = upperImmediate imm := by
  have hlt := imm.isLt
  apply BitVec.eq_of_toNat_eq
  rw [BitVec.toNat_shiftLeft, zeroExtended_toNat, upperImmediate_toNat, Nat.shiftLeft_eq, Nat.mod_eq_of_lt (by omega)]

/-- The CPU at Write Back of an instruction without a memory period. -/
def latchingCpu (u : Cpu) (w : Word) : Cpu := writingBackCpu { executingCpu (fetchedCpu u w) with cycle := .c11 }

/-- Write Back that writes one register and takes no branch is `finish`. -/
theorem latch_finish {c : Config} {v : Cpu} {r : Reg} {x : Word} (hpc : v.signals.writePC = true)
    (hbranch : v.signals.doBranch = false) (hwrite : v.writeBack c = some (r, x)) :
    v.latch c = runDecoded c (finish r x) v.arch := by
  simp [Cpu.latch, Cpu.takesBranch, hpc, hbranch, hwrite]
  rfl

/-- Write Back that writes no register and takes no branch is `advance`. -/
theorem latch_advance {c : Config} {v : Cpu} (hpc : v.signals.writePC = true) (hbranch : v.signals.doBranch = false)
    (hwrite : v.writeBack c = none) : v.latch c = runDecoded c (fun s => .next s.advance) v.arch := by
  simp [Cpu.latch, Cpu.takesBranch, hpc, hbranch, hwrite]

theorem latchingCpu_signals (u : Cpu) (w : Word) :
    (latchingCpu u w).signals = ((fetchedCpu u w).signals.atExecute (opcodeOf w)).atWriteBack (opcodeOf w) := rfl

theorem latchingCpu_arch (u : Cpu) (w : Word) : (latchingCpu u w).arch = u.arch := rfl

theorem latchingCpu_ir (u : Cpu) (w : Word) : (latchingCpu u w).ir = w := rfl

/-- Write Back of an instruction that neither uses memory nor transfers is `finish` of the ALU's result (R110 to R116, R130 to
R132, R150 to R153). -/
theorem latch_alu {c : Config} {u : Cpu} {w : Word} (hmem : usesMemory (opcodeOf w) = false)
    (hplain : ¬(opcodeOf w = .beq ∨ opcodeOf w = .jr ∨ opcodeOf w = .jrl)) :
    (latchingCpu u w).latch c = runDecoded c (execWith c (namedInstr w)) u.arch := by
  unfold namedInstr
  cases hop : opcodeOf w with
  | beq | jr | jrl => simp [hop] at hplain
  | lw | sw => simp [hop, usesMemory] at hmem
  | add | and | bsr | nor | or | sll | slt | xor | srl =>
    have hfinish := latch_finish (c := c) (v := latchingCpu u w) (r := rdField w)
      (x := alu c (opcodeOf w) (u.arch.getReg (rsField w)) (u.arch.getReg (rtField w)))
      (by rw [latchingCpu_signals, hop]; rfl) (by rw [latchingCpu_signals, hop]; rfl)
      (by simp only [Cpu.writeBack, Cpu.aluIn1, Cpu.aluIn2, latchingCpu_signals, hop]; rfl)
    rw [hfinish, hop]
    exact runDecoded_congr fun d => rfl
  | lui | ori =>
    have hfinish := latch_finish (c := c) (v := latchingCpu u w) (r := rsField w)
      (x := alu c (opcodeOf w) (zeroExtended (immField w)) (u.arch.getReg (rsField w)))
      (by rw [latchingCpu_signals, hop]; rfl) (by rw [latchingCpu_signals, hop]; rfl)
      (by simp only [Cpu.writeBack, Cpu.aluIn1, Cpu.aluIn2, latchingCpu_signals, hop]; rfl)
    rw [hfinish, hop]
    refine runDecoded_congr fun d => ?_
    simp only [execWith, execLui, execOri, alu, zeroExtended_shiftLeft, BitVec.or_comm (zeroExtended _), latchingCpu_arch,
      getReg_withDelayed]

/-- Execute checks the target of `beq`, `jr` and `jrl`. -/
theorem checkTarget_transfer {c : Config} {u : Cpu} {w : Word}
    (hop : opcodeOf w = .beq ∨ opcodeOf w = .jr ∨ opcodeOf w = .jrl) :
    (executingCpu (fetchedCpu u w)).checkTarget c = targetAddress c u.arch (u.arch.getReg (rdField w)) := by
  have hsignals : (executingCpu (fetchedCpu u w)).signals = (fetchedCpu u w).signals.atExecute (opcodeOf w) := rfl
  rcases hop with hop | hop | hop <;> rw [Cpu.checkTarget, hsignals, hop] <;> rfl

/-- Execute of every other instruction checks no target. -/
theorem checkTarget_plain {c : Config} {u : Cpu} {w : Word}
    (hop : ¬(opcodeOf w = .beq ∨ opcodeOf w = .jr ∨ opcodeOf w = .jrl)) :
    (executingCpu (fetchedCpu u w)).checkTarget c = .next 0 := by
  have hsignals : (executingCpu (fetchedCpu u w)).signals = (fetchedCpu u w).signals.atExecute (opcodeOf w) := rfl
  rw [Cpu.checkTarget, hsignals]
  cases hcase : opcodeOf w with
  | beq | jr | jrl => simp [hcase] at hop
  | add | and | lui | lw | bsr | nor | or | ori | sll | slt | xor | srl | sw => rfl

/-- What a transfer does once its target `t` has passed its check. -/
def transferTo (c : Config) (w : Word) (t : Word) (s : State) : Result State :=
  match opcodeOf w with
  | .jr => .next (s.transfer c t)
  | .jrl => .next ((s.setReg Reg.ra (linkValue c s)).transfer c t)
  | _ => .next (if wordsEqual (s.getReg (rsField w)) (s.getReg (rtField w)) then s.transfer c t else s.advance)

theorem execWith_transfer {c : Config} {w : Word} (hop : opcodeOf w = .beq ∨ opcodeOf w = .jr ∨ opcodeOf w = .jrl)
    (s : State) :
    execWith c (namedInstr w) s =
      andThen (targetAddress c s (s.getReg (rdField w))) fun t => transferTo c w t s := by
  unfold namedInstr transferTo
  rcases hop with hop | hop | hop <;> rw [hop] <;> rfl

/-- Write Back of a transfer whose target has passed its check (R120 to R124). -/
theorem latch_transfer {c : Config} {u : Cpu} {w t : Word}
    (hop : opcodeOf w = .beq ∨ opcodeOf w = .jr ∨ opcodeOf w = .jrl)
    (htarget : targetAddress c u.arch (u.arch.getReg (rdField w)) = .next t) :
    (latchingCpu u w).latch c = runDecoded c (transferTo c w t) u.arch := by
  refine runDecoded_congr fun d => ?_
  have hcheck : targetAddress c { u.arch with delayed := d }
      (({ u.arch with delayed := d } : State).getReg (rdField w)) = .next t := htarget
  unfold transferTo
  rcases hop with hop | hop | hop <;>
    simp only [Cpu.writeBack, Cpu.takesBranch, Cpu.aluIn1, Cpu.aluIn2, latchingCpu_signals, latchingCpu_arch,
      latchingCpu_ir, hop, Signals.atExecute, Signals.atWriteBack, fetchedCpu, Signals.atFetch, Signals.atDecode,
      aluBranches, hcheck, andThen_next]
  · exact (apply_ite Host.Outcome.next _ _ _).symm
  · rfl
  · rfl

/-- The CPU in the cycle in which the memory unit completes the access of `lw` or `sw` (cycle 10). -/
def accessingCpu (u : Cpu) (w : Word) : Cpu :=
  { executingCpu (fetchedCpu u w) with cycle := .c10, memUnit := .memReady4Ctrl }

/-- The CPU after that access, at Write Back (cycle 11), with `s` what the access made of the architectural state and `x` what
it read. -/
def accessedCpu (u : Cpu) (w : Word) (s : State) (x : Word) : Cpu :=
  { accessingCpu u w with
    arch := s
    memOut := x
    signals := { (accessingCpu u w).signals with memDone := true }
    memUnit := .memReady4Data
    cycle := .c11 }

theorem accessingCpu_signals (u : Cpu) (w : Word) :
    (accessingCpu u w).signals = (fetchedCpu u w).signals.atExecute (opcodeOf w) := rfl

theorem accessedCpu_signals (u : Cpu) (w : Word) (s : State) (x : Word) :
    (writingBackCpu (accessedCpu u w s x)).signals =
      Signals.atWriteBack { (fetchedCpu u w).signals.atExecute (opcodeOf w) with memDone := true } (opcodeOf w) := rfl

theorem clocks_memory {c : Config} {u : Cpu} {w : Word} (hop : opcodeOf w = .lw ∨ opcodeOf w = .sw) :
    Cpu.clocks c 5 (fetchedCpu u w) =
      andThen ((accessingCpu u w).access c) fun v => Cpu.clocks c 1 { v with memUnit := .memReady4Data, cycle := .c11 } := by
  have hmem : usesMemory (opcodeOf w) = true := by rcases hop with hop | hop <;> rw [hop] <;> rfl
  have hplain : ¬(opcodeOf w = .beq ∨ opcodeOf w = .jr ∨ opcodeOf w = .jrl) := by rcases hop with hop | hop <;> simp [hop]
  rw [clocks_execute_memory (u := fetchedCpu u w) rfl hmem, checkTarget_plain hplain]
  rfl

/-- `lw`: the access is the read, which leaves the architectural state, and Write Back is `finish` of what it read (R140). -/
theorem refines_lw {c : Config} {u : Cpu} {w : Word} (hop : opcodeOf w = .lw) :
    Refines (Cpu.clocks c 5 (fetchedCpu u w)) (runDecoded c (execWith c (namedInstr w)) u.arch) := by
  have haccess : (accessingCpu u w).access c =
      andThen (memRead c u.arch (u.arch.getReg (rtField w))) fun x =>
        .next { accessingCpu u w with memOut := x, signals := { (accessingCpu u w).signals with memDone := true } } := by
    simp only [Cpu.access, Cpu.memAddr, accessingCpu_signals, hop]
    rfl
  have hrun : runDecoded c (execWith c (namedInstr w)) u.arch =
      andThen (memRead c u.arch (u.arch.getReg (rtField w))) fun x => runDecoded c (finish (rsField w) x) u.arch := by
    refine runDecoded_of_check fun d => ?_
    rw [namedInstr, hop]
    rfl
  rw [clocks_memory (.inl hop), haccess, hrun, andThen_assoc]
  refine refines_andThen fun x _ => ?_
  have hlatch := latch_finish (c := c) (v := writingBackCpu (accessedCpu u w u.arch x)) (r := rsField w) (x := x)
    (by rw [accessedCpu_signals, hop]; rfl) (by rw [accessedCpu_signals, hop]; rfl)
    (by simp only [Cpu.writeBack, accessedCpu_signals, hop]; rfl)
  exact hlatch ▸ refines_writeBack c (u := accessedCpu u w u.arch x) rfl

/-- The word a store goes to, once it has passed both checks (R55). -/
def storeAddress (c : Config) (s : State) (a : Word) : Result Word := andThen (dataAddress c s a) (implemented c s)

theorem memWrite_eq_andThen (c : Config) (s : State) (a v : Word) :
    memWrite c s a v = andThen (storeAddress c s a) fun b => .next { s with mem := Memory.writeWord s.mem b v } := by
  rw [storeAddress, andThen_assoc]
  rfl

/-- `sw`: the access is the store, and Write Back advances the pc alone (R141). -/
theorem refines_sw {c : Config} {u : Cpu} {w : Word} (hop : opcodeOf w = .sw) :
    Refines (Cpu.clocks c 5 (fetchedCpu u w)) (runDecoded c (execWith c (namedInstr w)) u.arch) := by
  have haccess : (accessingCpu u w).access c =
      andThen (storeAddress c u.arch (u.arch.getReg (rtField w))) fun b =>
        .next { accessingCpu u w with
          arch := { u.arch with mem := Memory.writeWord u.arch.mem b (u.arch.getReg (rsField w)) }
          signals := { (accessingCpu u w).signals with memDone := true } } := by
    simp only [Cpu.access, Cpu.memAddr, accessingCpu_signals, hop, memWrite_eq_andThen, andThen_assoc]
    rfl
  have hrun : runDecoded c (execWith c (namedInstr w)) u.arch =
      andThen (storeAddress c u.arch (u.arch.getReg (rtField w))) fun b =>
        runDecoded c (fun s => .next s.advance)
          { u.arch with mem := Memory.writeWord u.arch.mem b (u.arch.getReg (rsField w)) } := by
    rw [runDecoded_of_check (r := storeAddress c u.arch (u.arch.getReg (rtField w))) (rest := fun b s =>
      .next ({ s with mem := Memory.writeWord s.mem b (s.getReg (rsField w)) } : State).advance)]
    · rfl
    · intro d
      rw [namedInstr, hop, execWith, swUnder, memWrite_eq_andThen, andThen_assoc]
      rfl
  rw [clocks_memory (.inr hop), haccess, hrun, andThen_assoc]
  refine refines_andThen fun b _ => ?_
  have hlatch := latch_advance (c := c) (v := writingBackCpu (accessedCpu u w
      { u.arch with mem := Memory.writeWord u.arch.mem b (u.arch.getReg (rsField w)) } w))
    (by rw [accessedCpu_signals, hop]; rfl) (by rw [accessedCpu_signals, hop]; rfl)
    (by simp only [Cpu.writeBack, accessedCpu_signals, hop]; rfl)
  exact hlatch ▸ refines_writeBack c (u := accessedCpu u w _ w) rfl

/-! ### The statements -/

/-- An instruction without a memory period: the target's check in Execute, if there is one, and then Write Back. -/
theorem refines_noMemory {c : Config} {u : Cpu} {w : Word} (hmem : usesMemory (opcodeOf w) = false) :
    Refines (Cpu.clocks c 2 (fetchedCpu u w)) (runDecoded c (execWith c (namedInstr w)) u.arch) := by
  have hwriteBack : Refines (Cpu.clocks c 1 { executingCpu (fetchedCpu u w) with cycle := .c11 })
      ((latchingCpu u w).latch c) := refines_writeBack c rfl
  rw [clocks_execute_noMemory (u := fetchedCpu u w) rfl hmem]
  by_cases hop : opcodeOf w = .beq ∨ opcodeOf w = .jr ∨ opcodeOf w = .jrl
  · have hrun : runDecoded c (execWith c (namedInstr w)) u.arch =
        andThen (targetAddress c u.arch (u.arch.getReg (rdField w))) fun t => runDecoded c (transferTo c w t) u.arch :=
      runDecoded_of_check fun d => execWith_transfer hop _
    rw [checkTarget_transfer hop, hrun]
    exact refines_andThen fun t htarget => latch_transfer hop htarget ▸ hwriteBack
  · rw [checkTarget_plain hop, andThen_next, ← latch_alu hmem hop]
    exact hwriteBack

/-- The clocks after Fetch and Decode refine the instruction, whichever it is. -/
theorem refines_execute {c : Config} {u : Cpu} {w : Word} :
    Refines (Cpu.clocks c (instrCycles (opcodeOf w) - 5) (fetchedCpu u w))
      (runDecoded c (execWith c (namedInstr w)) u.arch) := by
  cases hop : opcodeOf w with
  | lw => exact refines_lw hop
  | sw => exact refines_sw hop
  | add | and | beq | jr | jrl | lui | bsr | nor | or | ori | sll | slt | xor | srl =>
    exact refines_noMemory (by rw [hop]; rfl)

theorem five_le_instrCycles (op : Opcode) : 5 ≤ instrCycles op := by
  cases op <;> decide

/-- Settles O44: five clocks fetch and decode, which is `fetchInstr`, and the clocks after them refine the instruction. -/
theorem cpuCyclesRefineInstruction : Obligations.CpuCyclesRefineInstruction := by
  refine ⟨fun c u i hcycle hfetchInstr => ?_, fun i s => by rw [runDecoded_settings, execWith_settings]⟩
  obtain ⟨w, -, hfetch, hdec⟩ := fetchInstr_next hfetchInstr
  obtain ⟨rfl, -⟩ := decode_eq_ok_iff.mp hdec
  have hclocks : Cpu.clocks c (instrCycles (namedInstr w).opcode) u =
      Cpu.clocks c (instrCycles (opcodeOf w) - 5) (fetchedCpu u w) := by
    rw [opcode_namedInstr, ← Nat.add_sub_cancel' (five_le_instrCycles (opcodeOf w)), clocks_add,
      clocks_fetch hcycle hfetch hdec, andThen_next, Nat.add_sub_cancel_left]
  rw [hclocks]
  exact refines_execute

/-- Settles O46: in each of the three cycles the clock asks for `ready` first. -/
theorem cpuWaitsForMemory : Obligations.CpuWaitsForMemory := by
  intro c u hcycle
  rcases hcycle with hcycle | hcycle | hcycle <;> simp [Cpu.clock, hcycle]

/-! ### Clocks to go -/

/-- From Execute on, the clocks until the CPU is at Fetch again (R231). -/
def clocksToGo (u : Cpu) : Nat :=
  match u.cycle with
  | .c7 => instrCycles (opcodeOf u.ir) - 5
  | .c8 => 4
  | .c9 => 3
  | .c10 => 2
  | .c11 => 1
  | .c1 | .c2 | .c3 | .c4 | .c5 | .c6 => 0

theorem clocksToGo_clock {c : Config} {u v : Cpu} (hgo : 1 < clocksToGo u) (hclock : u.clock c true = .next v) :
    clocksToGo v + 1 = clocksToGo u := by
  unfold clocksToGo at hgo ⊢
  cases hcycle : u.cycle with
  | c1 | c2 | c3 | c4 | c5 | c6 | c11 => simp [hcycle] at hgo
  | c7 =>
    rw [Cpu.clock, hcycle] at hclock
    obtain ⟨-, -, hv⟩ := andThen_eq_next.mp hclock
    cases hv
    simp only [instrCycles]
    cases usesMemory (opcodeOf u.ir) <;> rfl
  | c8 | c9 =>
    rw [Cpu.clock, hcycle] at hclock
    cases hclock
    rfl
  | c10 =>
    rw [Cpu.clock, hcycle] at hclock
    obtain ⟨x, -, hv⟩ := andThen_eq_next.mp hclock
    cases hv
    rfl

theorem clocksToGo_clocks {c : Config} {n : Nat} {u v : Cpu} (hlt : n < clocksToGo u)
    (hclocks : Cpu.clocks c n u = .next v) : clocksToGo v + n = clocksToGo u := by
  induction n generalizing u with
  | zero => cases hclocks; rfl
  | succ n ih =>
    obtain ⟨x, hclock, hrest⟩ := andThen_eq_next.mp hclocks
    have hx := clocksToGo_clock (by omega) hclock
    have hv := ih (by omega) hrest
    omega

/-- Before the last clock of an instruction the CPU is not at Fetch: in the first five clocks it is in cycles 3 to 7, and then
there are clocks to go. -/
theorem cycle_ne_c2_of_lt {c : Config} {u v : Cpu} {w : Word} {i : Instr} {n : Nat} (hcycle : u.cycle = .c2)
    (hfetch : fetch c u.arch = .next w) (hdec : decode c w = .ok i) (hpos : 0 < n) (hlt : n < instrCycles (opcodeOf w))
    (hclocks : Cpu.clocks c n u = .next v) : v.cycle ≠ .c2 := by
  rcases lt_or_ge n 5 with hfew | hmany
  · interval_cases n <;>
      simp only [Cpu.clocks, Cpu.clock, hcycle, hfetch, andThen_next, if_true, Host.Outcome.next.injEq] at hclocks <;>
      simp [← hclocks]
  · obtain ⟨k, rfl⟩ := Nat.exists_eq_add_of_le hmany
    rw [clocks_add, clocks_fetch hcycle hfetch hdec, andThen_next] at hclocks
    have htotal : clocksToGo (fetchedCpu u w) = instrCycles (opcodeOf w) - 5 := rfl
    have hgo := clocksToGo_clocks (by omega) hclocks
    intro hv
    have hzero : clocksToGo v = 0 := by rw [clocksToGo, hv]
    omega

/-- Settles O45: the counts are `instrCycles`, and those of the two sequences are sums of them. -/
theorem instructionCycleCounts : Obligations.InstructionCycleCounts := by
  refine ⟨fun i => ?_, fun u v i n hcycle hfetchInstr hpos hlt hclocks => ?_, fun rs => rfl, fun f => rfl⟩
  · cases i <;> rfl
  · obtain ⟨w, -, hfetch, hdec⟩ := fetchInstr_next hfetchInstr
    obtain ⟨rfl, -⟩ := decode_eq_ok_iff.mp hdec
    rw [opcode_namedInstr] at hlt
    exact cycle_ne_c2_of_lt hcycle hfetch hdec hpos hlt hclocks

end Sys2Proof
end

section
/-! Proofs of the statements on the pseudo-instructions (45_pseudo_instructions.md R161 to R173): the effect of a sequence is
put together from those of its parts, the parts' from the statements on single instructions. -/

namespace Sys2Proof

open Machine

/-! ### Sequences -/

theorem execSeq_append (is js : List Instr) (s : State) :
    execSeq (is ++ js) s = andThen (execSeq is s) (execSeq js) := by
  induction is generalizing s with
  | nil => rfl
  | cons i rest ih =>
    rw [List.cons_append, execSeq, execSeq, andThen_assoc]
    exact congrArg _ (funext ih)

@[simp] theorem execSeq_singleton (i : Instr) (s : State) : execSeq [i] s = exec i s := andThen_eta _

/-! ### Frames in sequence -/

theorem sameMemory_trans {s t u : State} (h : SameMemory s t) (h' : SameMemory t u) : SameMemory s u :=
  fun a => (h' a).trans (h a)

theorem sameRegsExcept_trans {ds es fs : List Reg} {s t u : State} (h : SameRegsExcept ds s t) (h' : SameRegsExcept es t u)
    (hds : ds ⊆ fs) (hes : es ⊆ fs) : SameRegsExcept fs s u :=
  fun r hr => (h' r fun hmem => hr (hes hmem)).trans (h r fun hmem => hr (hds hmem))

theorem sameRegsExcept_of_writesOnlyReg {d : Reg} {v : Word} {s t : State} (h : WritesOnlyReg d v s t) :
    SameRegsExcept [d] s t := by
  obtain ⟨-, hregs, -, -⟩ := h
  exact fun r hr => hregs r (by simpa using hr)

theorem getReg_dest_of_writesOnlyReg {d : Reg} {v : Word} {s t : State} (h : WritesOnlyReg d v s t) :
    t.getReg d = if d = 0#4 then 0#16 else v := by
  obtain ⟨hvalue, -, -, -⟩ := h
  exact hvalue

theorem sameMemory_of_writesOnlyReg {d : Reg} {v : Word} {s t : State} (h : WritesOnlyReg d v s t) : SameMemory s t := by
  obtain ⟨-, -, hmem, -⟩ := h
  exact hmem

/-- A register read after one write, the value or the old one. -/
theorem getReg_writesOnlyReg {d : Reg} {v : Word} {s t : State} (h : WritesOnlyReg d v s t) (hd : d ≠ 0#4) (r : Reg) :
    t.getReg r = if r = d then v else s.getReg r := by
  obtain ⟨hvalue, hregs, -, -⟩ := h
  split
  · next hr => rw [hr, hvalue, if_neg hd]
  · next hr => exact hregs r hr

/-! ### Parts of sequences -/

/-- `li` completes with the immediate in its register, and the pc four further. -/
theorem exists_execSeq_li (rs : Reg) (v : Word) (s : State) :
    ∃ t, execSeq (expandLi rs v) s = .next t ∧ WritesOnlyReg rs v s t ∧ t.pc = s.pc + 4#16 := by
  obtain ⟨t, hlui, hupper, hpc⟩ := exists_finish_eq_next rs (upperImmediate (highByte v)) s
  obtain ⟨u, hori, hor, hpc'⟩ := exists_finish_eq_next rs (t.getReg rs ||| zeroExtended (lowByte v)) t
  refine ⟨u, ?_, writesOnlyReg_trans hupper hor fun hrs => ?_, by rw [hpc', hpc, BitVec.add_assoc]; rfl⟩
  · rw [expandLi, execSeq, exec_lui, hlui, andThen_next, execSeq_singleton, exec_ori, hori]
  · rw [getReg_of_writesOnlyReg hupper hrs, upperImmediate_highByte_or_zeroExtended_lowByte]

/-- `sw` to an even address completes with its word stored. -/
theorem exists_exec_sw {rs rt : Reg} {s : State} (heven : isEven (s.getReg rt) = true) :
    ∃ t, exec (.sw rs rt) s = .next t ∧ t.wordAt (s.getReg rt) = some (s.getReg rs) ∧
      SameMemoryExcept (s.getReg rt) s t ∧ SameRegs s t ∧ t.pc = s.pc + 2#16 := by
  obtain ⟨-, hstore, -, -⟩ := swResult rs rt s
  obtain ⟨-, t, hexec, hword, hmem, hregs, hpc, -⟩ := hstore _ (dataAddress_settings_even s heven)
  exact ⟨t, hexec, hword, hmem, hregs, hpc⟩

/-- `lw` from an even address whose word holds a value completes with that value. -/
theorem exists_exec_lw {rs rt : Reg} {s : State} {v : Word} (heven : isEven (s.getReg rt) = true)
    (hword : s.wordAt (s.getReg rt) = some v) :
    ∃ t, exec (.lw rs rt) s = .next t ∧ WritesOnlyReg rs v s t ∧ t.pc = s.pc + 2#16 := by
  obtain ⟨-, hload, -, -⟩ := lwResult rs rt s
  exact hload ((isEven_iff _).mp heven) v hword

/-! ### Through `$at` (R161, R162, R171 to R173) -/

/-- What a register reads once a value was loaded into `$at`. -/
def viaAt (s : State) (loaded : Word) (r : Reg) : Word := if r = .at then loaded else s.getReg r

/-- A value loaded into `$at`, and then one instruction that is `finish` of a value on `rd`. -/
theorem exists_execSeq_viaAt (rd : Reg) (loaded result : Word) {i : Instr} {s : State}
    (hexec : ∀ t : State, (∀ r, t.getReg r = viaAt s loaded r) → exec i t = finish rd result t) :
    ∃ t, execSeq (expandLi .at loaded ++ [i]) s = .next t ∧ t.getReg rd = (if rd = 0#4 then 0#16 else result) ∧
      (rd ≠ .at → t.getReg .at = loaded) ∧ SameRegsExcept [rd, .at] s t ∧ SameMemory s t ∧ t.pc = s.pc + 6#16 := by
  obtain ⟨t, hli, hload, hpc⟩ := exists_execSeq_li .at loaded s
  obtain ⟨u, hfinish, hwrite, hpc'⟩ := exists_finish_eq_next rd result t
  have hsees : ∀ r, t.getReg r = viaAt s loaded r := getReg_writesOnlyReg hload (by decide)
  have hregs := sameRegsExcept_of_writesOnlyReg hwrite
  refine ⟨u, ?_, getReg_dest_of_writesOnlyReg hwrite, fun hrd => ?_, ?_, ?_, by rw [hpc', hpc, BitVec.add_assoc]; rfl⟩
  · rw [execSeq_append, hli, andThen_next, execSeq_singleton, hexec t hsees, hfinish]
  · rw [hregs .at (by simpa using hrd.symm), hsees, viaAt, if_pos rfl]
  · exact sameRegsExcept_trans (sameRegsExcept_of_writesOnlyReg hload) hregs (by simp) (by simp)
  · exact sameMemory_trans (sameMemory_of_writesOnlyReg hload) (sameMemory_of_writesOnlyReg hwrite)

theorem shiftAmount_ofNat (n : BitVec 4) : shiftAmount (BitVec.ofNat 16 n.toNat) = n.toNat := by
  have hlt := n.isLt
  rw [shiftAmount_eq_mod, BitVec.toNat_ofNat]
  omega

/-- Settles O49: each is a load of `$at` and one instruction that finishes with the operation's result. -/
theorem immediatePseudoEffects : Obligations.ImmediatePseudoEffects := by
  intro rs rd v n s sees effect amount
  have hamount : n.setWidth 16 = amount := (BitVec.ofNat_toNat 16 n).symm
  have hat (w : Word) : viaAt s w .at = w := if_pos rfl
  have hshift : shiftAmount amount = n.toNat := shiftAmount_ofNat n
  refine ⟨?_, ?_, ?_, ?_, ?_⟩
  · refine exists_execSeq_viaAt rd v _ fun t hsees => ?_
    rw [exec_add, hsees, hsees, hat]
    rfl
  · refine exists_execSeq_viaAt rd v _ fun t hsees => ?_
    rw [exec_and, hsees, hsees, hat]
    rfl
  · simp only [effect, Pseudo.expand, hamount]
    refine exists_execSeq_viaAt rd amount _ fun t hsees => ?_
    rw [exec_sll, hsees, hsees, hat, hshift]
    rfl
  · simp only [effect, Pseudo.expand, hamount]
    refine exists_execSeq_viaAt rd amount _ fun t hsees => ?_
    rw [exec_srl, hsees, hsees, hat, hshift]
    rfl
  · simp only [effect, Pseudo.expand, hamount]
    refine exists_execSeq_viaAt rd amount _ fun t hsees => ?_
    rw [exec_bsr, hsees, hsees, hat, hshift, ror16_eq_rotateRight _ n.isLt]
    rfl

/-- The effect of `addi`, which the sequences below begin with or hold. -/
theorem exists_execSeq_addi (rs : Reg) (v : Word) (rd : Reg) (s : State) :
    ∃ t, execSeq (expandAddi rs v rd) s = .next t ∧ t.getReg rd = (if rd = 0#4 then 0#16 else viaAt s v rs + v) ∧
      (rd ≠ .at → t.getReg .at = v) ∧ SameRegsExcept [rd, .at] s t ∧ SameMemory s t ∧ t.pc = s.pc + 6#16 := by
  obtain ⟨haddi, -⟩ := immediatePseudoEffects rs rd v 0#4 s
  exact haddi

/-! ### `lwo` and `swo` (R164, R165) -/

/-- Settles O50: `addi` leaves the address in `$at`, where the load or the store reads it. -/
theorem offsetPseudoEffects : Obligations.OffsetPseudoEffects := by
  intro rs rt imm s ea heven
  obtain ⟨t, haddi, hat, -, hregs, hmem, hpc⟩ := exists_execSeq_addi rt imm .at s
  replace hat : t.getReg .at = ea := hat
  have heven' : isEven (t.getReg .at) = true := hat ▸ (isEven_iff _).mpr heven
  refine ⟨fun v hword => ?_, ?_⟩
  · obtain ⟨u, hlw, hwrite, hpc'⟩ := exists_exec_lw (rs := rs) heven' (by rw [hat, hmem, hword])
    have hregs' := sameRegsExcept_of_writesOnlyReg hwrite
    refine ⟨u, ?_, getReg_dest_of_writesOnlyReg hwrite, fun hrs => ?_, ?_, ?_, by rw [hpc', hpc, BitVec.add_assoc]; rfl⟩
    · rw [Pseudo.expand, execSeq_append, haddi, andThen_next, execSeq_singleton, hlw]
    · rw [hregs' .at (by simpa using hrs.symm), hat]
    · exact sameRegsExcept_trans hregs hregs' (by simp) (by simp)
    · exact sameMemory_trans hmem (sameMemory_of_writesOnlyReg hwrite)
  · obtain ⟨u, hsw, hstored, hmem', hregs', hpc'⟩ := exists_exec_sw (rs := rs) heven'
    rw [hat] at hstored hmem'
    refine ⟨u, ?_, by rw [hregs', hat], fun r hr => ?_, ?_, fun a ha => ?_, by rw [hpc', hpc, BitVec.add_assoc]; rfl⟩
    · rw [Pseudo.expand, execSeq_append, haddi, andThen_next, execSeq_singleton, hsw]
    · rw [hregs', hregs r (by simpa using hr)]
    · rw [hstored]
      split
      · next hrs => rw [hrs, hat]
      · next hrs => rw [hregs rs (by simpa using hrs)]
    · rw [hmem' a ha, hmem]

/-! ### The stack (R166, R167) -/

/-- `$sp` two less is still even. -/
theorem isEven_sub_two {a : Word} (h : isEven a = true) : isEven (a - 2#16) = true := by
  rw [isEven_iff] at h ⊢
  rw [BitVec.toNat_sub, BitVec.toNat_ofNat]
  omega

/-- Settles O51: `addi` moves `$sp`, and the store writes the word there. -/
theorem pushEffect : Obligations.PushEffect := by
  intro rs s heven
  obtain ⟨t, haddi, hsp, hat, hregs, hmem, hpc⟩ := exists_execSeq_addi .sp 0xFFFE#16 .sp s
  replace hsp : t.getReg .sp = s.getReg .sp - 2#16 := by
    rw [hsp, if_neg (by decide), viaAt, if_neg (by decide), BitVec.sub_eq_add_neg]
    rfl
  have heven' : isEven (t.getReg .sp) = true := hsp ▸ isEven_sub_two ((isEven_iff _).mpr heven)
  obtain ⟨u, hsw, hstored, hmem', hregs', hpc'⟩ := exists_exec_sw (rs := rs) heven'
  rw [hsp] at hstored hmem'
  refine ⟨u, ?_, by rw [hregs', hsp], by rw [hregs', hat (by decide)], fun r hr => ?_, ?_, fun a ha => ?_,
    by rw [hpc', hpc, BitVec.add_assoc]; rfl⟩
  · rw [Pseudo.expand, expandPush, execSeq_append, haddi, andThen_next, execSeq_singleton, hsw]
  · rw [hregs', hregs r hr]
  · rw [hstored]
    split
    · next hrs => rw [hrs, hat (by decide)]
    · next hrsAt =>
      split
      · next hrsSp => rw [hrsSp, hsp]
      · next hrsSp => rw [hregs rs (by simp [hrsSp, hrsAt])]
  · rw [hmem' a ha, hmem]

/-- Settles O52: the load reads the word at `$sp`, and `addi` moves `$sp` from what the load left there. -/
theorem popEffect : Obligations.PopEffect := by
  intro rs s v heven hword
  obtain ⟨t, hlw, hwrite, hpc⟩ := exists_exec_lw (rs := rs) ((isEven_iff _).mpr heven) hword
  obtain ⟨u, haddi, hsp, hat, hregs, hmem, hpc'⟩ := exists_execSeq_addi .sp 0x2#16 .sp t
  refine ⟨u, ?_, fun hzero hrsAt hrsSp => ?_, hat (by decide), ?_, ?_, ?_, by rw [hpc', hpc, BitVec.add_assoc]; rfl⟩
  · rw [Pseudo.expand, expandPop, execSeq_append, execSeq_singleton, hlw, andThen_next, haddi]
  · rw [hregs rs (by simp [hrsAt, hrsSp]), getReg_of_writesOnlyReg hwrite hzero]
  · rw [hsp, if_neg (by decide), viaAt, if_neg (by decide)]
    split
    · next hrsSp => rw [← hrsSp, getReg_of_writesOnlyReg hwrite (hrsSp ▸ by decide)]
    · next hrsSp => rw [sameRegsExcept_of_writesOnlyReg hwrite .sp (by simpa using Ne.symm hrsSp)]
  · exact sameRegsExcept_trans (sameRegsExcept_of_writesOnlyReg hwrite) hregs (by simp) (by simp)
  · exact sameMemory_trans (sameMemory_of_writesOnlyReg hwrite) hmem

end Sys2Proof
end

section
/-! Proofs of the statements on `sub`, `call`, `jmp` and `jeq` and on the sizes (45_pseudo_instructions.md R163, R168 to R170,
R174): longer sequences, put together from the effects of `push`, `pop`, `li` and `addi`. -/

namespace Sys2Proof

open Machine

/-! ### `sub` (R163) -/

/-- The middle of `sub`, between `push` and `pop`: `rt` is negated in place and then added to `rs`. -/
theorem exists_execSeq_negateAdd {rs rt rd : Reg} (hrt : rt ≠ .at) (s : State) :
    ∃ t, execSeq ([.nor rt .zero rt] ++ expandAddi rt 0x1#16 rt ++ [.add rs rt rd]) s = .next t ∧
      t.getReg rd = (if rd = 0#4 then 0#16 else
        (if rs = .at then 1#16 else if rs = rt then 0#16 - s.getReg rt else s.getReg rs) - s.getReg rt) ∧
      SameRegsExcept [rd, rt, .at] s t ∧ SameMemory s t ∧ t.pc = s.pc + 10#16 := by
  obtain ⟨t, hnor, hcomplement, hpc⟩ := exists_finish_eq_next rt (~~~(s.getReg rt ||| s.getReg .zero)) s
  obtain ⟨u, haddi, hneg, hat, hregs, hmem, hpc'⟩ := exists_execSeq_addi rt 0x1#16 rt t
  obtain ⟨v, hadd, hsum, hpc''⟩ := exists_finish_eq_next rd (u.getReg rs + u.getReg rt) u
  have hrtValue : u.getReg rt = 0#16 - s.getReg rt := by
    rw [hneg, viaAt, if_neg hrt]
    by_cases hzero : rt = 0#4
    · rw [if_pos hzero, hzero, getReg_zero]
      rfl
    · rw [if_neg hzero, getReg_of_writesOnlyReg hcomplement hzero, getReg_zero, BitVec.or_zero, BitVec.zero_sub,
        BitVec.neg_eq_not_add]
  have hregs' := sameRegsExcept_trans (fs := [rt, .at]) (sameRegsExcept_of_writesOnlyReg hcomplement) hregs (by simp) (by simp)
  refine ⟨v, ?_, ?_, ?_, ?_, ?_⟩
  · rw [execSeq_append, execSeq_append, execSeq_singleton, exec_nor, hnor, andThen_next, haddi, andThen_next,
      execSeq_singleton, exec_add, hadd]
  · have hminuend : u.getReg rs = if rs = .at then 1#16 else if rs = rt then 0#16 - s.getReg rt else s.getReg rs := by
      split
      · next hrs => rw [hrs, hat hrt]
      · next hrsAt =>
        split
        · next hrs => rw [hrs, hrtValue]
        · next hrs => exact hregs' rs (by simp [hrs, hrsAt])
    rw [getReg_dest_of_writesOnlyReg hsum, hminuend, hrtValue, BitVec.zero_sub, BitVec.sub_eq_add_neg]
  · exact sameRegsExcept_trans hregs' (sameRegsExcept_of_writesOnlyReg hsum) (by simp) (by simp)
  · exact sameMemory_trans (sameMemory_trans (sameMemory_of_writesOnlyReg hcomplement) hmem) (sameMemory_of_writesOnlyReg hsum)
  · rw [hpc'', hpc', hpc, BitVec.add_assoc, BitVec.add_assoc]
    rfl

/-- Settles O53: `push` saves `rt`, its middle leaves the difference in `rd`, and `pop` brings `rt` and `$sp` back. -/
theorem subEffect : Obligations.SubEffect := by
  intro rs rt rd s hne hrsSp hrange heven minuend
  obtain ⟨hrtAt, hrtSp⟩ := hrange rt (by simp)
  obtain ⟨hrdAt, hrdSp⟩ := hrange rd (by simp)
  obtain ⟨t, hpush, hsp, -, hregs, hword, hmem, hpc⟩ := pushEffect rt s heven
  rw [if_neg hrtAt, if_neg hrtSp] at hword
  obtain ⟨u, hmiddle, hdiff, hregs', hmem', hpc'⟩ := exists_execSeq_negateAdd (rs := rs) (rd := rd) hrtAt t
  have hsp' : u.getReg .sp = s.getReg .sp - 2#16 := by
    rw [hregs' .sp (by simp [hrdSp.symm, hrtSp.symm, show Reg.sp ≠ Reg.at by decide]), hsp]
  have heven' := (isEven_iff _).mp (isEven_sub_two ((isEven_iff _).mpr heven))
  obtain ⟨v, hpop, hrestored, hat, hspRestored, hregs'', hmem'', hpc''⟩ :=
    popEffect rt u (s.getReg rt) (hsp' ▸ heven') (by rw [hsp', hmem', hword])
  rw [if_neg hrtSp, hsp', BitVec.sub_add_cancel] at hspRestored
  refine ⟨v, ?_, ?_, hat, fun r hr => ?_, by rw [hmem'', hmem', hword], fun a ha => by rw [hmem'', hmem', hmem a ha], ?_⟩
  · have hexpand : (Pseudo.sub rs rt rd).expand =
        (Pseudo.push rt).expand ++ ([.nor rt .zero rt] ++ expandAddi rt 0x1#16 rt ++ [.add rs rt rd]) ++
          (Pseudo.pop rt).expand := by
      simp only [Pseudo.expand, List.append_assoc]
    rw [hexpand, execSeq_append, execSeq_append, hpush, andThen_next, hmiddle, andThen_next, hpop]
  · rw [hregs'' rd (by simp [hne.symm, hrdAt, hrdSp]), hdiff, hregs rt (by simp [hrtAt, hrtSp])]
    by_cases hrsAt : rs = .at
    · simp only [minuend, hrsAt, if_true]
    · simp only [minuend, hrsAt, if_false, hregs rs (by simp [hrsAt, hrsSp])]
  · simp only [List.mem_cons, List.not_mem_nil, or_false, not_or] at hr
    obtain ⟨hrd, hrAt⟩ := hr
    by_cases hrSp : r = .sp
    · rw [hrSp, hspRestored]
    by_cases hrRt : r = rt
    · by_cases hzero : rt = 0#4
      · rw [hrRt, hzero, getReg_zero, getReg_zero]
      · rw [hrRt, hrestored hzero hrtAt hrtSp]
    · rw [hregs'' r (by simp [hrRt, hrSp, hrAt]), hregs' r (by simp [hrd, hrRt, hrAt]), hregs r (by simp [hrSp, hrAt])]
  · rw [hpc'', hpc', hpc, BitVec.add_assoc, BitVec.add_assoc]
    rfl

/-! ### `call` (R168) -/

/-- Settles O54: the first seven words are a load of `$la`, `push $ra` and `jrl $la`, each with the effect shown above. -/
theorem callEntersCallee : Obligations.CallEntersCallee := by
  intro func s hfunc heven
  refine ⟨rfl, ?_⟩
  obtain ⟨t, hli, hload, hpc⟩ := exists_execSeq_li .la func s
  have hsees := getReg_writesOnlyReg hload (by decide)
  have hspT : t.getReg .sp = s.getReg .sp := hsees .sp
  obtain ⟨u, hpush, hsp, hat, hregs, hword, hmem, hpc'⟩ := pushEffect .ra t (hspT ▸ heven)
  rw [hspT] at hsp hword hmem
  have hla : u.getReg .la = func := by
    rw [hregs .la (by decide), hsees, if_pos rfl]
  obtain ⟨-, hjump, -⟩ := jrlResult .la u
  obtain ⟨v, hjrl, ⟨hlink, hregs', hmem', -⟩, hpc''⟩ := hjump (hla ▸ hfunc)
  refine ⟨v, ?_, by rw [hpc'', hla], by rw [hregs' _ (by decide), hla], by rw [hregs' _ (by decide), hat],
    by rw [hregs' _ (by decide), hsp], ?_, ?_, fun r hr => ?_, fun a ha => ?_⟩
  · have hexpand : (Pseudo.call func).expand.take 7 = expandLi .la func ++ (Pseudo.push .ra).expand ++ [.jrl .la] := rfl
    rw [hexpand, execSeq_append, execSeq_append, hli, andThen_next, hpush, andThen_next, execSeq_singleton, hjrl]
  · rw [hlink, if_neg (by decide), hpc', hpc, BitVec.add_assoc, BitVec.add_assoc]
    rfl
  · rw [hmem', hword]
    exact congrArg some (hsees .ra)
  · simp only [List.mem_cons, List.not_mem_nil, or_false, not_or] at hr
    obtain ⟨hrLa, hrAt, hrSp, hrRa⟩ := hr
    rw [hregs' r hrRa, hregs r (by simp [hrSp, hrAt]), hsees, if_neg hrLa]
  · rw [hmem', hmem a ha, sameMemory_of_writesOnlyReg hload]

/-! ### `jmp` and `jeq` (R169, R170) -/

/-- A write to one register, and then a step that changes neither registers nor memory. -/
theorem writesOnlyReg_sameRegs {d : Reg} {v : Word} {s t u : State} (h : WritesOnlyReg d v s t) (hregs : SameRegs t u)
    (hmem : SameMemory t u) (hdelayed : u.delayed = t.delayed) : WritesOnlyReg d v s u := by
  obtain ⟨hvalue, hothers, hmem', hdelayed'⟩ := h
  exact ⟨(hregs d).trans hvalue, fun r hr => (hregs r).trans (hothers r hr), sameMemory_trans hmem' hmem,
    hdelayed.trans hdelayed'⟩

/-- Settles O55: the label is loaded into `$la`, which the transfer then reads. -/
theorem jumpPseudoEffects : Obligations.JumpPseudoEffects := by
  intro rs rt l s heven sees
  obtain ⟨t, hli, hload, hpc⟩ := exists_execSeq_li .la l s
  have hsees : ∀ r, t.getReg r = sees r := getReg_writesOnlyReg hload (by decide)
  have hla : t.getReg .la = l := (hsees .la).trans (if_pos rfl)
  refine ⟨?_, ?_⟩
  · obtain ⟨-, hjump, -⟩ := jrResult .la t
    obtain ⟨u, hjr, hregs, hmem, hdelayed, hpc'⟩ := hjump (hla ▸ heven)
    refine ⟨u, ?_, writesOnlyReg_sameRegs hload hregs hmem hdelayed, by rw [hpc', hla]⟩
    rw [Pseudo.expand, execSeq_append, hli, andThen_next, execSeq_singleton, hjr]
  · obtain ⟨-, hbranch, -⟩ := beqResult rs rt .la t
    obtain ⟨u, hbeq, hregs, hmem, hdelayed, hpc'⟩ := hbranch (hla ▸ heven)
    refine ⟨u, ?_, writesOnlyReg_sameRegs hload hregs hmem hdelayed, ?_⟩
    · rw [Pseudo.expand, execSeq_append, hli, andThen_next, execSeq_singleton, hbeq]
    · rw [hpc', hla, hsees, hsees, hpc, BitVec.add_assoc]
      rfl

/-! ### Sizes (R174) -/

/-- Settles O47: no expansion's length depends on its operands. -/
theorem expansionSizes : Obligations.ExpansionSizes := by
  intro p
  cases p <;> rfl

end Sys2Proof
end

section
/-! Proof of the statement on `BYTE_ORDER` (20_memory.md R50): no operation of a step, a launch or the assembler reads it. -/

namespace Sys2Proof

open Machine

theorem stepWith_withByteOrder (c : Config) (o : Option ByteOrder) (s : State) :
    stepWith { c with byteOrder := o } s = stepWith c s := by
  have hexec : execWith { c with byteOrder := o } = execWith c := by
    funext i t
    cases i <;> rfl
  have hfetch : fetchInstr { c with byteOrder := o } s = fetchInstr c s := rfl
  rw [stepWith, stepWith, hexec, hfetch]
  rfl

theorem collectLabels_withByteOrder (c : Config) (o : Option ByteOrder) (ls : List SrcLine) (loc : Nat) (t : LabelTable) :
    collectLabels { c with byteOrder := o } ls loc t = collectLabels c ls loc t := by
  induction ls generalizing loc t with
  | nil => rfl
  | cons l ls ih =>
    have hsize : l.item.size { c with byteOrder := o } = l.item.size c := rfl
    simp only [collectLabels, hsize, ih]

theorem emitWords_withByteOrder (c : Config) (o : Option ByteOrder) (t : LabelTable) (ls : List SrcLine) :
    emitWords { c with byteOrder := o } t ls = emitWords c t ls := by
  induction ls with
  | nil => rfl
  | cons l ls ih =>
    have hwords : l.item.words { c with byteOrder := o } t = l.item.words c t := rfl
    simp only [emitWords, hwords, ih]

/-- Two memories in canonical form that hold the same word at every even address list the same at every number. -/
theorem read_eq_of_even_words {m n : Memory} (hm : Memory.wf m) (hn : Memory.wf n)
    (h : ∀ a, isEven a = true → Memory.readWord m a = Memory.readWord n a) (a : Nat) : Memory.read m a = Memory.read n a := by
  by_cases ha : a % 2 = 0 ∧ a < 0x10000
  · obtain ⟨heven, hlt⟩ := ha
    have htoNat : (BitVec.ofNat 16 a).toNat = a := Nat.mod_eq_of_lt hlt
    have hword := h (BitVec.ofNat 16 a) ((isEven_iff _).mpr (by rw [htoNat, heven]))
    rwa [Memory.readWord, Memory.readWord, htoNat] at hword
  · rw [read_outside hm ha, read_outside hn ha]

/-- Settles O39: with the other fields of the parameters alike, every operation answers alike. -/
theorem byteOrderIsNotObservable : Obligations.ByteOrderIsNotObservable := by
  refine ⟨fun c o => ⟨stepWith_withByteOrder c o, rfl, fun src => ?_⟩, fun m n hm hn h => ?_⟩
  · simp only [assemble, collectLabels_withByteOrder, emitWords_withByteOrder]
  · exact wf_ext hm hn (read_eq_of_even_words hm hn h)

end Sys2Proof
end

section
/-! Proofs of the statements on the assembler (30_encoding.md R89 to R97): which code a well-formed statement is, and that sizes,
labels and words follow one location counter. -/

namespace Sys2Proof

open Machine

/-! ### Operands and well-formed statements (R93, R94) -/

theorem fits_reg_iff (o : Operand) : o.fits .reg = true ↔ ∃ r, o = .reg r := by
  cases o <;> simp [Operand.fits]

theorem fits_imm8_iff (o : Operand) : o.fits .imm8 = true ↔ ∃ n, o = .imm n ∧ n < 0x100 := by
  cases o <;> simp [Operand.fits]

theorem fits_shamt_iff (o : Operand) : o.fits .shamt = true ↔ ∃ n, o = .imm n ∧ n < 0x10 := by
  cases o <;> simp [Operand.fits]

theorem fits_labelOnly_iff (o : Operand) : o.fits .labelOnly = true ↔ ∃ l, o = .label l := by
  cases o <;> simp [Operand.fits]

/-- An operand that fits a 16-bit immediate writes one. -/
theorem exists_imm16_of_fits {o : Operand} (h : o.fits .imm16 = true) : ∃ v, o.imm16 = some v := by
  cases o with
  | reg r => cases h
  | imm n => exact ⟨_, rfl⟩
  | label l => exact ⟨_, rfl⟩

theorem fitsAll_nil_iff (os : List Operand) : fitsAll [] os = true ↔ os = [] := by
  cases os <;> simp [fitsAll]

theorem fitsAll_cons_iff (k : OperandKind) (ks : List OperandKind) (os : List Operand) :
    fitsAll (k :: ks) os = true ↔ ∃ o rest, os = o :: rest ∧ o.fits k = true ∧ fitsAll ks rest = true := by
  cases os <;> simp [fitsAll]

/-- The operands of a well-formed statement fit its signature. -/
theorem fitsAll_of_wf {t : Stmt} (h : t.wf = true) : fitsAll t.mnemonic.signature t.operands = true := by
  unfold Stmt.wf at h
  obtain ⟨hfits, -⟩ := (Bool.and_eq_true _ _).mp h
  exact hfits

theorem check_eq_ok {t : Stmt} {code : Code} (hwf : t.wf = true) (hcode : t.code? = some code) : t.check = .ok code := by
  rw [Stmt.check, hwf, hcode]

/-- Operands that fit a mnemonic's signature are those of an instruction or a pseudo-instruction. -/
theorem exists_code_of_fitsAll {m : Mnemonic} {os : List Operand} (h : fitsAll m.signature os = true) :
    ∃ code, (Stmt.mk m os).code? = some code := by
  cases m with
  | hw op =>
    cases op <;> simp only [Mnemonic.signature, fitsAll_cons_iff, fitsAll_nil_iff, fits_reg_iff, fits_imm8_iff] at h
    case jr | jrl =>
      obtain ⟨_, _, rfl, ⟨rd, rfl⟩, rfl⟩ := h
      exact ⟨_, rfl⟩
    case lui | ori =>
      obtain ⟨_, _, rfl, ⟨rs, rfl⟩, _, _, rfl, ⟨n, rfl, -⟩, rfl⟩ := h
      exact ⟨_, rfl⟩
    case lw | sw =>
      obtain ⟨_, _, rfl, ⟨rs, rfl⟩, _, _, rfl, ⟨rt, rfl⟩, rfl⟩ := h
      exact ⟨_, rfl⟩
    case add | and | beq | bsr | nor | or | sll | slt | xor | srl =>
      obtain ⟨_, _, rfl, ⟨rs, rfl⟩, _, _, rfl, ⟨rt, rfl⟩, _, _, rfl, ⟨rd, rfl⟩, rfl⟩ := h
      exact ⟨_, rfl⟩
  | ps p =>
    cases p <;>
      simp only [Mnemonic.signature, fitsAll_cons_iff, fitsAll_nil_iff, fits_reg_iff, fits_labelOnly_iff, fits_shamt_iff] at h
    case push | pop =>
      obtain ⟨_, _, rfl, ⟨rs, rfl⟩, rfl⟩ := h
      exact ⟨_, rfl⟩
    case call | jmp =>
      obtain ⟨_, _, rfl, ⟨l, rfl⟩, rfl⟩ := h
      exact ⟨_, rfl⟩
    case sub =>
      obtain ⟨_, _, rfl, ⟨rs, rfl⟩, _, _, rfl, ⟨rt, rfl⟩, _, _, rfl, ⟨rd, rfl⟩, rfl⟩ := h
      exact ⟨_, rfl⟩
    case jeq =>
      obtain ⟨_, _, rfl, ⟨rs, rfl⟩, _, _, rfl, ⟨rt, rfl⟩, _, _, rfl, ⟨l, rfl⟩, rfl⟩ := h
      exact ⟨_, rfl⟩
    case slli | srli | bsri =>
      obtain ⟨_, _, rfl, ⟨n, rfl, -⟩, _, _, rfl, ⟨rt, rfl⟩, _, _, rfl, ⟨rd, rfl⟩, rfl⟩ := h
      exact ⟨_, rfl⟩
    case li =>
      obtain ⟨_, _, rfl, ⟨rs, rfl⟩, _, _, rfl, hfits, rfl⟩ := h
      obtain ⟨v, hv⟩ := exists_imm16_of_fits hfits
      exact ⟨_, congrArg (Option.map _) hv⟩
    case addi | andi =>
      obtain ⟨_, _, rfl, ⟨rs, rfl⟩, _, _, rfl, hfits, _, _, rfl, ⟨rd, rfl⟩, rfl⟩ := h
      obtain ⟨v, hv⟩ := exists_imm16_of_fits hfits
      exact ⟨_, congrArg (Option.map _) hv⟩
    case lwo | swo =>
      obtain ⟨_, _, rfl, ⟨rs, rfl⟩, _, _, rfl, ⟨rt, rfl⟩, _, _, rfl, hfits, rfl⟩ := h
      obtain ⟨v, hv⟩ := exists_imm16_of_fits hfits
      exact ⟨_, congrArg (Option.map _) hv⟩

/-- Settles O56: each form's operands fit its signature, and its code is read off them in their order. -/
theorem wellFormedStatementsAssemble : Obligations.WellFormedStatementsAssemble := by
  refine ⟨fun t hwf => ?_, fun rs rt rd n l => ?_⟩
  · obtain ⟨code, hcode⟩ := exists_code_of_fitsAll (fitsAll_of_wf hwf)
    exact ⟨code, check_eq_ok hwf hcode⟩
  · intro hw ps three withImm16
    have himm16 (o : Operand) (v : Imm16) (hfits : o.fits .imm16 = true) (hv : o.imm16 = some v) : withImm16 o v := by
      refine ⟨?_, ?_, ?_, ?_, ?_⟩ <;>
        refine check_eq_ok ?_ ?_ <;> simp [Stmt.wf, Mnemonic.signature, fitsAll, Stmt.code?, fits_reg_iff, hfits, hv]
    refine ⟨?_, ?_, ?_, ?_, ?_, ?_, ?_, ?_⟩
    · refine ⟨?_, ?_, ?_, ?_, ?_, ?_, ?_, ?_, ?_, ?_⟩ <;> exact ⟨_, rfl, rfl⟩
    · refine ⟨?_, ?_, ?_, ?_⟩ <;> exact ⟨_, rfl, rfl⟩
    · intro hn
      have hfits : (Operand.imm n).fits .imm8 = true := decide_eq_true hn
      refine ⟨⟨_, check_eq_ok ?_ rfl, rfl⟩, ⟨_, check_eq_ok ?_ rfl, rfl⟩⟩ <;>
        simp [Stmt.wf, Mnemonic.signature, fitsAll, hfits, fits_reg_iff]
    · exact fun hn => himm16 _ _ (decide_eq_true hn) rfl
    · exact himm16 _ _ rfl rfl
    · intro hne
      exact check_eq_ok (by simp [Stmt.wf, Mnemonic.signature, fitsAll, fits_reg_iff, subOperandsDiffer, three, hne]) rfl
    · exact ⟨rfl, rfl, rfl, rfl, rfl⟩
    · intro hn
      have hfits : (Operand.imm n).fits .shamt = true := decide_eq_true hn
      refine ⟨check_eq_ok ?_ rfl, check_eq_ok ?_ rfl, check_eq_ok ?_ rfl⟩ <;>
        simp [Stmt.wf, Mnemonic.signature, fitsAll, hfits, fits_reg_iff]

end Sys2Proof
end

section
/-! Proofs of the statements on the location counter (30_encoding.md R95 to R97): every line has a fixed size, a label's value is
the counter at its line, and the words are as many as the sizes say. -/

namespace Sys2Proof

open Machine

/-! ### Labels (R96) -/

/-- What an accepted first line tells: its size, that it ends inside the address space, and the label it adds, if any. -/
theorem collectLabels_cons_eq_ok {c : Config} {l : SrcLine} {ls : List SrcLine} {loc : Nat} {t t' : LabelTable}
    (h : collectLabels c (l :: ls) loc t = .ok t') :
    ∃ n t₁, l.item.size c = .ok n ∧ loc + 2 * n ≤ 0x10000 ∧ collectLabels c ls (loc + 2 * n) t₁ = .ok t' ∧
      (l.label = none ∧ t₁ = t ∨
        ∃ name, l.label = some name ∧ t.lookup name = none ∧ t₁ = (name, BitVec.ofNat 16 loc) :: t) := by
  rw [collectLabels] at h
  split at h
  · cases h
  · next n hsize =>
    split at h
    · cases h
    · next hfits =>
      split at h
      · next hlabel => exact ⟨n, t, hsize, by omega, h, .inl ⟨hlabel, rfl⟩⟩
      · next name hlabel =>
        split at h
        · cases h
        · next hfresh =>
          exact ⟨n, _, hsize, by omega, h, .inr ⟨name, hlabel, Option.not_isSome_iff_eq_none.mp hfresh, rfl⟩⟩

/-- The lines of accepted labels all have a size, and they end inside the address space. -/
theorem exists_sizes_of_collectLabels {c : Config} {ls : List SrcLine} {loc : Nat} {t t' : LabelTable}
    (h : collectLabels c ls loc t = .ok t') (hloc : loc ≤ 0x10000) :
    ∃ ns : List Nat, (ls.map fun l => l.item.size c) = ns.map .ok ∧ loc + 2 * ns.sum ≤ 0x10000 := by
  induction ls generalizing loc t with
  | nil => exact ⟨[], rfl, by simpa using hloc⟩
  | cons l ls ih =>
    obtain ⟨n, t₁, hsize, hfits, hrest, -⟩ := collectLabels_cons_eq_ok h
    obtain ⟨ns, hsizes, hend⟩ := ih hrest hfits
    refine ⟨n :: ns, by simp [hsize, hsizes], ?_⟩
    rw [List.sum_cons]
    omega

/-- A label that has a value keeps it, for a second definition is refused (R90). -/
theorem lookup_of_collectLabels {c : Config} {ls : List SrcLine} {loc : Nat} {t t' : LabelTable} {name : LabelName} {v : Word}
    (h : collectLabels c ls loc t = .ok t') (hv : t.lookup name = some v) : t'.lookup name = some v := by
  induction ls generalizing loc t with
  | nil =>
    cases h
    exact hv
  | cons l ls ih =>
    obtain ⟨n, t₁, -, -, hrest, ⟨-, rfl⟩ | ⟨name', -, hfresh, rfl⟩⟩ := collectLabels_cons_eq_ok h
    · exact ih hrest hv
    · refine ih hrest ?_
      have hne : name ≠ name' := by
        rintro rfl
        simp [hfresh] at hv
      rw [List.lookup_cons, beq_false_of_ne hne, hv]

/-- Settles O58, by induction on the lines, for every table of labels before them. -/
theorem labelsAreLineAddresses : Obligations.LabelsAreLineAddresses := by
  intro c ls loc t h
  generalize ([] : LabelTable) = before at h
  induction ls generalizing loc before with
  | nil => intro j hj; simp at hj
  | cons l ls ih =>
    intro j hj name hname
    obtain ⟨n, t₁, hsize, -, hrest, hlabel⟩ := collectLabels_cons_eq_ok h
    cases j with
    | zero =>
      rcases hlabel with ⟨hnone, -⟩ | ⟨name', hsome, -, rfl⟩
      · simp [hnone] at hname
      · have hname' : name' = name := by simpa [hsome] using hname
        refine ⟨[], rfl, lookup_of_collectLabels hrest ?_⟩
        simp [hname']
    | succ j =>
      obtain ⟨ns, hsizes, hlookup⟩ := ih _ _ hrest j (by simpa using hj) name hname
      refine ⟨n :: ns, by simp [hsize, hsizes], ?_⟩
      rw [hlookup, List.sum_cons]
      congr 2
      omega

/-! ### Words (R95, R96) -/

theorem size_of_resolve {α : Type} {value : α → Option Word} {p : Pseudo α} {q : Pseudo Word}
    (h : p.resolve value = some q) : q.size = p.size := by
  cases p <;> simp only [Pseudo.resolve, Option.map_eq_some_iff, Option.some.injEq] at h
  case sub | push | pop | slli | srli | bsri =>
    subst h
    rfl
  all_goals
    obtain ⟨v, -, rfl⟩ := h
    rfl

/-- An item emits as many words as its size says. -/
theorem length_words {c : Config} {t : LabelTable} {item : Item} {n : Nat} {ws : List Word} (hsize : item.size c = .ok n)
    (hwords : item.words c t = .ok ws) : ws.length = n := by
  unfold Item.words at hwords
  unfold Item.size at hsize
  split at hwords
  · cases hwords
    cases hsize
    rfl
  · next p =>
    split at hwords
    · next q hresolve =>
      cases hwords
      cases hsize
      rw [List.length_map, expansionSizes q, size_of_resolve hresolve]
    · cases hwords
  · next text =>
    simp only [hwords, Except.map] at hsize
    cases hsize
    rfl

theorem emitWords_cons_eq_ok {c : Config} {t : LabelTable} {l : SrcLine} {ls : List SrcLine} {ws : List Word}
    (h : emitWords c t (l :: ls) = .ok ws) :
    ∃ first rest, l.item.words c t = .ok first ∧ emitWords c t ls = .ok rest ∧ ws = first ++ rest := by
  rw [emitWords] at h
  split at h
  · next first rest hfirst hrest =>
    cases h
    exact ⟨first, rest, hfirst, hrest, rfl⟩
  · cases h
  · cases h

theorem length_emitWords {c : Config} {t : LabelTable} {ls : List SrcLine} {ns : List Nat} {ws : List Word}
    (hsizes : (ls.map fun l => l.item.size c) = ns.map .ok) (hwords : emitWords c t ls = .ok ws) : ws.length = ns.sum := by
  induction ls generalizing ns ws with
  | nil =>
    cases hwords
    cases ns with
    | nil => rfl
    | cons n ns => simp at hsizes
  | cons l ls ih =>
    cases ns with
    | nil => simp at hsizes
    | cons n ns =>
      rw [List.map_cons, List.map_cons, List.cons.injEq] at hsizes
      obtain ⟨hsize, hsizes⟩ := hsizes
      obtain ⟨first, rest, hfirst, hrest, rfl⟩ := emitWords_cons_eq_ok hwords
      rw [List.length_append, length_words hsize hfirst, ih hsizes hrest, List.sum_cons]

@[simp] theorem length_place (loc : Nat) (ws : List Word) : (place loc ws).length = ws.length := by
  induction ws generalizing loc with
  | nil => rfl
  | cons w ws ih => rw [place, List.length_cons, List.length_cons, ih]

theorem getElem_place {loc : Nat} {ws : List Word} {k : Nat} (h : k < (place loc ws).length) :
    ((place loc ws)[k]'h).1 = BitVec.ofNat 16 (loc + 2 * k) := by
  induction ws generalizing loc k with
  | nil => simp [place] at h
  | cons w ws ih =>
    cases k with
    | zero => rfl
    | succ k =>
      have hrest : k < (place (loc + 2) ws).length := by simpa [place] using h
      simp only [place, List.getElem_cons_succ]
      rw [ih hrest]
      congr 1
      omega

/-! ### Accepted texts -/

/-- What an accepted text went through: its lines, their labels, and their words, placed from `LOAD_BASE` on. -/
theorem assemble_eq_ok {c : Config} {src : List Char} {image : List (Word × Word)} (h : assemble c src = .ok image) :
    ∃ ls t ws, parseLines (splitAtChar '\n' src) = .ok ls ∧ collectLabels c ls c.loadBase.toNat [] = .ok t ∧
      emitWords c t ls = .ok ws ∧ image = place c.loadBase.toNat ws := by
  unfold assemble at h
  split at h
  · cases h
  · split at h
    · cases h
    · next ls hparse =>
      split at h
      · cases h
      · next t hlabels =>
        cases hwords : emitWords c t ls with
        | error e => simp [hwords, Except.map] at h
        | ok ws =>
          simp only [hwords, Except.map] at h
          cases h
          exact ⟨ls, t, ws, hparse, hlabels, hwords, rfl⟩

/-- Settles O57: the lines' sizes bound the counter, and the words are as many as the sizes say. -/
theorem assembledWordsAreConsecutive : Obligations.AssembledWordsAreConsecutive := by
  intro c src image h
  obtain ⟨ls, t, ws, hparse, hlabels, hwords, rfl⟩ := assemble_eq_ok h
  obtain ⟨ns, hsizes, hend⟩ := exists_sizes_of_collectLabels hlabels c.loadBase.isLt.le
  have hlength := length_emitWords hsizes hwords
  refine ⟨⟨ls, ns, hparse, hsizes, by rw [length_place, hlength]⟩, fun k hk => ?_⟩
  have hk' : k < ns.sum := by rwa [length_place, hlength] at hk
  refine ⟨by omega, ?_⟩
  rw [getElem_place, BitVec.toNat_ofNat, Nat.mod_eq_of_lt (by omega)]

/-- Settles O59: the labels of an accepted text give every line a size, and without a layout a `.asciiz` line has none. -/
theorem asciizRefusedWithoutPacking : Obligations.AsciizRefusedWithoutPacking := by
  intro c src ls hpacking hparse hdata image h
  obtain ⟨l, hl, text, htext⟩ := hdata
  obtain ⟨ls', t, -, hparse', hlabels, -, -⟩ := assemble_eq_ok h
  obtain rfl : ls = ls' := by
    rw [hparse] at hparse'
    cases hparse'
    rfl
  obtain ⟨ns, hsizes, -⟩ := exists_sizes_of_collectLabels hlabels c.loadBase.isLt.le
  have hmem : l.item.size c ∈ ns.map Except.ok := hsizes ▸ List.mem_map_of_mem hl
  obtain ⟨n, -, hsize⟩ := List.mem_map.mp hmem
  simp [htext, Item.size, asciizWords, hpacking, Except.map] at hsize

/-- Settles O60: the kernel runs the assembler on the five texts. -/
theorem assemblesWorkedExamples : Obligations.AssemblesWorkedExamples := by
  refine ⟨?_, ?_, ?_, rfl, rfl⟩ <;> decide

end Sys2Proof
end
